-- ==== Sys2Proof/Word.lean ====
section
/-! DEFINITION. The widths of what crosses the port and of what the registers hold. -/

namespace Sys2Proof

/-- A word: an unsigned integer of `W` = 64 bits, bit 0 the least significant (00_scope.md R9). -/
abbrev Word := BitVec 64

/-- A command word of format C, 68 bits (30_encoding.md R51). -/
abbrev CmdWord := BitVec 68

/-- The 4-bit command code `op` = `cw[67:64]` (30_encoding.md R51). -/
abbrev OpCode := BitVec 4

/-- The two state words `(s0, s1)` of one generator, as the arguments of `xstep` (41_scalar_engine.md R80, R81). -/
abbrev GenState := Word × Word

/-- Exclusive or of two generator states, word by word (41_scalar_engine.md R81, R88). -/
abbrev GenState.xor (g h : GenState) : GenState := (g.1 ^^^ h.1, g.2 ^^^ h.2)

end Sys2Proof
end

