-- ==== Sys2Proof/Config.lean ====
section
/-! DEFINITION. The parameters of 00_scope.md R6 (fixed by the source) and R7 (open in the source, with the spec's
values). The block has no other configuration and no rule leaves the result of a command open, so nothing here is an
opaque free value. -/

namespace Sys2Proof.Config

/-- `LANES`: lanes of the vector engine (R6). -/
def lanes : Nat := 4

/-- `BUF_WORDS`: words of the staging buffer (R6). -/
def bufWords : Nat := 4

/-- `ROT_A`: rotate-left amount applied to s0 (R6). -/
def rotA : Nat := 24

/-- `SHL_B`: left-shift amount applied to the mixed s1 (R6). -/
def shlB : Nat := 16

/-- `ROT_C`: rotate-left amount applied to the mixed s1 (R6). -/
def rotC : Nat := 37

/-- `SM_GAMMA`: seed-expander counter increment (R6). -/
def smGamma : Word := 0x9E3779B97F4A7C15#64

/-- `SM_M1`: multiplier of the first mixing round (R6). -/
def smM1 : Word := 0xBF58476D1CE4E5B9#64

/-- `SM_M2`: multiplier of the second mixing round (R6). -/
def smM2 : Word := 0x94D049BB133111EB#64

/-- `OUT_MIN`: static minimum of a result word (R6, R63). -/
def outMin : Word := 0x0000000000000000#64

/-- `OUT_MAX`: static maximum of a result word (R6, R63). -/
def outMax : Word := 0xFFFFFFFFFFFFFFFF#64

/-- `JUMP_DISTANCE`: number of draws one SJUMP stands for (R6, 41_scalar_engine.md R86). -/
def jumpDistance : Nat := 2 ^ 64

/-- `SM_SH1`: right shift of the first xor-shift of the expander (R7, D10; PRESUMED, entry 6: unsafe). -/
def smSh1 : Nat := 30

/-- `SM_SH2`: right shift of the second xor-shift (R7, D10; PRESUMED, entry 6: unsafe). -/
def smSh2 : Nat := 27

/-- `SM_SH3`: right shift of the final xor-shift (R7, D10; PRESUMED, entry 6: unsafe). -/
def smSh3 : Nat := 31

/-- `JUMP_POLY0`: bits 0 to 63 of the jump polynomial (R7, R87, D11; DEDUCED, entry 7: unsafe). -/
def jumpPoly0 : Word := 0xDF900294D8F554A5#64

/-- `JUMP_POLY1`: bits 64 to 127 of the jump polynomial (R7, R87, D11; DEDUCED, entry 7: unsafe). -/
def jumpPoly1 : Word := 0x170865DF4B3201FC#64

end Sys2Proof.Config
end

