-- ==== Sys2Proof/Syntax.lean ====
section
/-! DEFINITION. The commands of the block (30_encoding.md R55), the fields of a command word (R51, R52), and the lines
an assembler turns into commands (R59 to R63). -/

namespace Sys2Proof

/-- The seven commands, one constructor per row of spec/opcode_table.json (30_encoding.md R55). The only operand is the
64-bit seed of the three seed commands, and every word is a legal seed (R54). -/
inductive Instr where
  /-- SMINIT seed: start the seed expander (40_seed_expander.md R73). -/
  | sminit (seed : Word)
  /-- SMNEXT: the next word of the expander's sequence (40_seed_expander.md R72). -/
  | smnext
  /-- SSEED seed: seed the scalar engine (41_scalar_engine.md R83). -/
  | sseed (seed : Word)
  /-- SDRAW: one word of the scalar engine (41_scalar_engine.md R84). -/
  | sdraw
  /-- SJUMP: advance the scalar engine by 2^64 draws (41_scalar_engine.md R85). -/
  | sjump
  /-- VSEED seed: seed the vector engine (42_vector_engine.md R103). -/
  | vseed (seed : Word)
  /-- VDRAW: one word of the vector engine (42_vector_engine.md R104). -/
  | vdraw
deriving DecidableEq, Repr

/-- The field `unit` = `cw[67:66]` (R51, R52). -/
inductive UnitField where
  /-- `00`, the seed expander SM. -/
  | sm
  /-- `01`, the scalar engine SC. -/
  | sc
  /-- `10`, the vector engine V (lane array and extraction buffer together). -/
  | v
  /-- `11`, none: reserved. -/
  | none
deriving DecidableEq, Repr

/-- The field `fn` = `cw[65:64]` (R51, R52). -/
inductive FnField where
  /-- `00`, construction or `reseed(seed)`. -/
  | seed
  /-- `01`, the draw operation. -/
  | draw
  /-- `10`, `Jump()`. -/
  | jump
  /-- `11`, none: reserved. -/
  | none
deriving DecidableEq, Repr

/-- What may stand first on an assembly line: the seven mnemonics (R55) and the five pseudo-commands (R60 to R62). -/
inductive AsmOp where
  | sminit | smnext | sseed | sdraw | sjump | vseed | vdraw
  | sreseed | vreseed | sctor | vctor | smctor
deriving DecidableEq, Repr

/-- The operand of an assembly line: a number as written (R59), or one of the two bounds by name (R63). -/
inductive AsmOperand where
  | number (n : Nat)
  | outMin
  | outMax
deriving DecidableEq, Repr

/-- One line of assembly text with a command on it (R59). -/
structure AsmLine where
  op : AsmOp
  operand : Option AsmOperand
deriving DecidableEq, Repr

end Sys2Proof
end

