-- ==== Sys2Proof/WellFormed.lean ====
section
/-! DEFINITION. Well-formed commands and well-formed assembly lines. -/

namespace Sys2Proof

/-- A command is well formed whatever its seed: every 64-bit value is a legal seed, and there is no other operand
(30_encoding.md R54). The check can refuse nothing; the checks that can are those on an assembly line, below. -/
def Instr.wf : Instr → Bool
  | .sminit _ => true
  | .smnext => true
  | .sseed _ => true
  | .sdraw => true
  | .sjump => true
  | .vseed _ => true
  | .vdraw => true

/-- Does an assembly operation take an operand? The three seed commands (R59) and the three pseudo-commands that
stand for one with its seed (R60, R62) do; SCTOR and VCTOR have none (R61). -/
def AsmOp.takesOperand : AsmOp → Bool
  | .sminit | .sseed | .vseed => true
  | .sreseed | .vreseed | .smctor => true
  | .smnext | .sdraw | .sjump | .vdraw => false
  | .sctor | .vctor => false

/-- Check 1: an operand is a number below 2^64 or a bound by name (R59, R63). -/
def AsmOperand.wf : AsmOperand → Bool
  | .number n => decide (n < 2 ^ 64)
  | .outMin => true
  | .outMax => true

/-- Check 2: an operand stands on the line exactly where the operation takes one (R59); with check 1. -/
def AsmLine.wf (l : AsmLine) : Bool :=
  match l.operand with
  | .none => !l.op.takesOperand
  | .some x => l.op.takesOperand && x.wf

end Sys2Proof
end

