-- ==== Sys2Proof/Decode.lean ====
section
/-! DEFINITION. The decoder of 30_encoding.md R65, total on all 2^68 command words, and after it the encoder, written
from the opcode map of R55. The source has no encoding: the port, the word and the codes are the spec's own decisions
(D2 to D5, D25; DESIGN CHOICE, entry 10). -/

namespace Sys2Proof

/-! ## The fields of a command word (R51) -/

/-- `unit` = `cw[67:66]` (R51). -/
def unitOf (cw : CmdWord) : UnitField :=
  match cw.getLsbD 67, cw.getLsbD 66 with
  | false, false => .sm
  | false, true => .sc
  | true, false => .v
  | true, true => .none

/-- `fn` = `cw[65:64]` (R51). -/
def fnOf (cw : CmdWord) : FnField :=
  match cw.getLsbD 65, cw.getLsbD 64 with
  | false, false => .seed
  | false, true => .draw
  | true, false => .jump
  | true, true => .none

/-- `data` = `cw[63:0]`, the seed operand whole, with no extension, scaling or shift (R51, R54). -/
def dataOf (cw : CmdWord) : Word := cw.extractLsb' 0 64

/-- `op` = `cw[67:64]`, the two fields `unit` and `fn` together (R51). -/
def opOf (cw : CmdWord) : OpCode := cw.extractLsb' 64 4

/-! ## Decoding -/

/-- What the decoder answers (R56, R65). -/
inductive Decoded where
  /-- One of the seven commands of R55. -/
  | command (i : Instr)
  /-- `invalid`: one of the nine reserved codes of R56, named by its `op`. -/
  | invalid (op : OpCode)
deriving DecidableEq, Repr

/-- The decoder: seven values of `op` give the commands of R55, the nine reserved ones of R56 give `invalid`; it reads
nothing but `cw`, and `data` only as the seed of a seed command (R54, R65). -/
def decode (cw : CmdWord) : Decoded :=
  match unitOf cw, fnOf cw with
  | .sm, .seed => .command (.sminit (dataOf cw))
  | .sm, .draw => .command .smnext
  | .sm, .jump => .invalid (opOf cw)
  | .sm, .none => .invalid (opOf cw)
  | .sc, .seed => .command (.sseed (dataOf cw))
  | .sc, .draw => .command .sdraw
  | .sc, .jump => .command .sjump
  | .sc, .none => .invalid (opOf cw)
  | .v, .seed => .command (.vseed (dataOf cw))
  | .v, .draw => .command .vdraw
  | .v, .jump => .invalid (opOf cw)
  | .v, .none => .invalid (opOf cw)
  | .none, .seed => .invalid (opOf cw)
  | .none, .draw => .invalid (opOf cw)
  | .none, .jump => .invalid (opOf cw)
  | .none, .none => .invalid (opOf cw)

/-! ## Encoding -/

/-- The two bits of `unit` (R51). -/
def UnitField.code : UnitField → BitVec 2
  | .sm => 0b00#2
  | .sc => 0b01#2
  | .v => 0b10#2
  | .none => 0b11#2

/-- The two bits of `fn` (R51). -/
def FnField.code : FnField → BitVec 2
  | .seed => 0b00#2
  | .draw => 0b01#2
  | .jump => 0b10#2
  | .none => 0b11#2

/-- A command word of format C from its three fields (R51). -/
def formatC (u : UnitField) (f : FnField) (data : Word) : CmdWord :=
  (u.code ++ f.code ++ data : BitVec (2 + 2 + 64))

/-- The command word of a command: the row of R55, with `data` 0 where the command takes no operand, as an assembler
writes it (R54). -/
def encode : Instr → CmdWord
  | .sminit seed => formatC .sm .seed seed
  | .smnext => formatC .sm .draw 0#64
  | .sseed seed => formatC .sc .seed seed
  | .sdraw => formatC .sc .draw 0#64
  | .sjump => formatC .sc .jump 0#64
  | .vseed seed => formatC .v .seed seed
  | .vdraw => formatC .v .draw 0#64

/-- The column `mask` of R55, the same in every row: only `op` selects. -/
def rowMask : CmdWord := 0xF0000000000000000#68

/-- The column `match` of R55, one value per row. -/
def rowMatch : Instr → CmdWord
  | .sminit _ => 0x00000000000000000#68
  | .smnext => 0x10000000000000000#68
  | .sseed _ => 0x40000000000000000#68
  | .sdraw => 0x50000000000000000#68
  | .sjump => 0x60000000000000000#68
  | .vseed _ => 0x80000000000000000#68
  | .vdraw => 0x90000000000000000#68

/-- The column `operand` of R55: the seed of a seed command; an operand-less command has none. -/
def Instr.operand : Instr → Option Word
  | .sminit seed => some seed
  | .smnext => none
  | .sseed seed => some seed
  | .sdraw => none
  | .sjump => none
  | .vseed seed => some seed
  | .vdraw => none

/-- The column `returns` of R55: does the command's completion carry a word (R53)? -/
def Instr.returnsWord : Instr → Bool
  | .sminit _ => false
  | .smnext => true
  | .sseed _ => false
  | .sdraw => true
  | .sjump => false
  | .vseed _ => false
  | .vdraw => true

/-! ## The opcode table's numbering of bits -/

/-- The command word whose bits are `w`, of which the table gives the low `nbits`: bit i of the command word is bit i
of `w`. A command word has 68 bits (R51), so the padding above them in whole bytes is no part of it (DESIGN CHOICE,
entry 5: safe). -/
def tableCommandWord (nbits w : Nat) : CmdWord := BitVec.ofNat 68 (w % 2 ^ nbits)

/-- The command the decoder reads from a word numbered as spec/opcode_table.json numbers it. -/
def decodeTableWord (nbits w : Nat) : Option Instr :=
  match decode (tableCommandWord nbits w) with
  | .command i => some i
  | .invalid _ => none

end Sys2Proof
end

