-- ==== Sys2Proof/Machine/State.lean ====
section
/-! DEFINITION. What the machine holds: the 16 registers of 10_state.md R20, and the two ends of the command port
(30_encoding.md R50). -/

namespace Sys2Proof.Machine

/-- Four like things, one for each k in 0..3: a lane of the lane array or a slot of the staging buffer
(10_state.md R25, R27). -/
structure Lanes (α : Type) where
  lane0 : α
  lane1 : α
  lane2 : α
  lane3 : α
deriving DecidableEq, Repr

/-- The whole architectural state of one instance of the block: 16 registers, 962 bits (10_state.md R20). -/
structure Registers where
  /-- `smx`, the seed expander's counter (R21). -/
  smx : Word
  /-- `ss0`, the scalar engine's first state word (R22). -/
  ss0 : Word
  /-- `ss1`, the scalar engine's second state word (R22). -/
  ss1 : Word
  /-- `vs0[0..3]`, the lanes' first state words (R25). -/
  vs0 : Lanes Word
  /-- `vs1[0..3]`, the lanes' second state words (R25). -/
  vs1 : Lanes Word
  /-- `vbuf[0..3]`, the staging buffer (R27). -/
  vbuf : Lanes Word
  /-- `vcur`, the number of words of `vbuf` not yet returned, 2 bits (R28). -/
  vcur : BitVec 2
deriving DecidableEq, Repr

/-- The completion of a command: with a result word for SMNEXT, SDRAW and VDRAW, without one for the four others
(30_encoding.md R53). -/
inductive Completion where
  /-- `respond()`: the command has no result. -/
  | done
  /-- `respond(v)`: the command's result word. -/
  | word (v : Word)
deriving DecidableEq, Repr

/-- One thing the host does at the block's boundary. -/
inductive HostEvent where
  /-- The host presents a command word and waits for its completion (30_encoding.md R50). -/
  | command (cw : CmdWord)
  /-- A reset event (70_reset_and_hazards.md R140), arriving while the block is idle or, with `some cw`, during the
  command `cw`, which it abandons (R141). `after` is what the registers hold afterwards: unspecified, so a free input
  (R140; entry 4). -/
  | reset (abandoned : Option CmdWord) (after : Registers)
  /-- A second command presented before the first has completed, or by a second master: outside the spec (R146,
  R147, D26). -/
  | overlap (first second : CmdWord)
deriving DecidableEq, Repr

/-- The machine: the block's registers, what the host will do at the port, and what the port has delivered. The last
two are the model's own, oldest first (entries 2 and 3). -/
structure State where
  /-- The 16 registers (10_state.md R20). -/
  regs : Registers
  /-- What the host does next, oldest first (20_memory.md R45, 10_state.md R31). -/
  inputs : List HostEvent
  /-- The completions delivered so far, oldest first (30_encoding.md R50, 20_memory.md R45). -/
  sent : List Completion
deriving DecidableEq, Repr

/-- The faults of the block: none. It raises no exception, fault or trap, from any command, in any state
(60_exceptions.md R120, R121: the table of exceptions is empty). -/
inductive Fault
deriving DecidableEq, Repr

/-- The inputs the model has no meaning for. -/
inductive Refusal where
  /-- Raised by a refused arm of `exec` for a command that has no meaning yet; safe. No arm raises it. -/
  | notModelled (mnemonic : String)
  /-- Raised at the port for a command word whose `op` is a reserved code: undefined for the block, refused by a model
  (30_encoding.md R56, 60_exceptions.md R127, U1); safe. -/
  | reservedCode (op : OpCode)
  /-- Raised at the port for two commands that overlap: outside the spec, refused by a model (70_reset_and_hazards.md
  R147, U5); safe. -/
  | overlappingCommands
deriving DecidableEq, Repr

/-- What an instruction's meaning, the port and the step answer. -/
abbrev Outcome := Host.Outcome State Fault Refusal

/-- The registers Q0 of 95_test_vectors.md section 8: the start state from which the spec runs its programs and which
'stands for "any value"' (R140). -/
def Registers.q0 : Registers where
  smx := 0xAAAAAAAAAAAAAAAA#64
  ss0 := 0xBBBBBBBBBBBBBBBB#64
  ss1 := 0xCCCCCCCCCCCCCCCC#64
  vs0 := ⟨0xD0D0D0D0D0D0D0D0#64, 0xD0D0D0D0D0D0D0D1#64, 0xD0D0D0D0D0D0D0D2#64, 0xD0D0D0D0D0D0D0D3#64⟩
  vs1 := ⟨0xE0E0E0E0E0E0E0E0#64, 0xE0E0E0E0E0E0E0E1#64, 0xE0E0E0E0E0E0E0E2#64, 0xE0E0E0E0E0E0E0E3#64⟩
  vbuf := ⟨0xF0F0F0F0F0F0F0F0#64, 0xF0F0F0F0F0F0F0F1#64, 0xF0F0F0F0F0F0F0F2#64, 0xF0F0F0F0F0F0F0F3#64⟩
  vcur := 2#2

/-- The machine right after a reset that leaves `after` in the registers: idle, with nothing presented and nothing
delivered (70_reset_and_hazards.md R140 to R142). -/
def State.afterReset (after : Registers) : State where
  regs := after
  inputs := []
  sent := []

/-- The machine right after reset. The spec leaves all 962 bits unspecified (10_state.md R36, R140); the value here is
the spec's own start state Q0 (DESIGN CHOICE, entry 1: unsafe). No statement rests on it; what
must hold after reset is stated of `State.afterReset` for every content. -/
def State.reset : State := State.afterReset Registers.q0

end Sys2Proof.Machine
end

