-- ==== Sys2Proof/Machine/Operands.lean ====
section
/-! DEFINITION. The word operators of 00_scope.md R11 to R16. The one operand form, the seed, is whole in the command
word and needs no assembly (30_encoding.md R54; `dataOf` in Decode.lean). -/

namespace Sys2Proof.Machine

/-- `a + b`: addition modulo 2^64, the carry recorded nowhere (R11). -/
def addWord (a b : Word) : Word := a + b

/-- `a * b`: multiplication modulo 2^64 (R12). -/
def mulWord (a b : Word) : Word := a * b

/-- `a ^ b`: bitwise exclusive or (R13). -/
def xorWord (a b : Word) : Word := a ^^^ b

/-- `a << k`: logical left shift, truncated to 64 bits (R14). -/
def shlWord (a : Word) (k : Nat) : Word := a <<< k

/-- `a >> k`: logical right shift, zero fill (R15). -/
def shrWord (a : Word) (k : Nat) : Word := a >>> k

/-- `rotl(a, k)`: rotate left, by the formula of R16. -/
def rotl (a : Word) (k : Nat) : Word := shlWord a k ||| shrWord a (64 - k)

/-- `z -> z ^ (z >> k)`: the xor-shift of the seed expander (R15). -/
def xorShiftRight (k : Nat) (z : Word) : Word := xorWord z (shrWord z k)

end Sys2Proof.Machine
end

