-- ==== Sys2Proof/Machine/Flags.lean ====
section
/-! DEFINITION. The block has no flag, condition code or predicate, and no operation computes one: the carry of an
addition is lost and every wrap-around is silent (00_scope.md R11, R17; 10_state.md R32). So there is no flag in
`Registers` and no flag computation to write here; this file says so in the place where a reader looks for it. -/
end

