-- ==== Sys2Proof/Machine/Ops.lean ====
section
/-! DEFINITION. The operations the commands share: the numbered register files, the expander's `mix64` and `sm_next`,
the generator's `xstep`, the jump, the lockstep step and the refill, and the end of a command. Taking an exception and
returning from one are no operations of this block: there is none (60_exceptions.md R120, R125, R126). -/

namespace Sys2Proof.Machine

/-! ## The numbered register files -/

/-- `x[k]` of a register file (00_scope.md R18). -/
def Lanes.get {α : Type} (v : Lanes α) : Fin 4 → α
  | 0 => v.lane0
  | 1 => v.lane1
  | 2 => v.lane2
  | 3 => v.lane3

/-- `x[k] <- a` of a register file (00_scope.md R18). -/
def Lanes.set {α : Type} (v : Lanes α) (k : Fin 4) (a : α) : Lanes α :=
  match k with
  | 0 => { v with lane0 := a }
  | 1 => { v with lane1 := a }
  | 2 => { v with lane2 := a }
  | 3 => { v with lane3 := a }

/-- `for k in 0..3, in parallel: x[k] <- f k` (42_vector_engine.md R101). -/
def Lanes.tabulate {α : Type} (f : Fin 4 → α) : Lanes α := ⟨f 0, f 1, f 2, f 3⟩

/-- The lane numbers in the order of `for k in 0..3` (00_scope.md R18). -/
def laneOrder : List (Fin 4) := [0, 1, 2, 3]

/-! ## The seed expander -/

/-- `mix64` for any three shift amounts, the parameters R7 leaves open (40_seed_expander.md R71). -/
def mix64With (sh1 sh2 sh3 : Nat) (z : Word) : Word :=
  let a := xorShiftRight sh1 z
  let b := mulWord a Config.smM1
  let c := xorShiftRight sh2 b
  let d := mulWord c Config.smM2
  xorShiftRight sh3 d

/-- `mix64(z)` (40_seed_expander.md R71). -/
def mix64 (z : Word) : Word := mix64With Config.smSh1 Config.smSh2 Config.smSh3 z

/-- `smx <- seed` (40_seed_expander.md R73). -/
def Registers.smLoad (r : Registers) (seed : Word) : Registers := { r with smx := seed }

/-- `sm_next()`: advance the counter, then mix the new value (40_seed_expander.md R72). -/
def Registers.smNext (r : Registers) : Word × Registers :=
  let x := addWord r.smx Config.smGamma
  (mix64 x, r.smLoad x)

/-! ## The generator -/

/-- `xstep(a, b)` = (r, a2, b2) (41_scalar_engine.md R80). -/
def xstep (a b : Word) : Word × Word × Word :=
  let r := addWord a b
  let t := xorWord b a
  let a2 := xorWord (xorWord (rotl a Config.rotA) t) (shlWord t Config.shlB)
  let b2 := rotl t Config.rotC
  (r, a2, b2)

/-- The result word of `xstep` on a generator state. -/
def genResult (g : GenState) : Word := (xstep g.1 g.2).1

/-- `T`, the state part of `xstep`; `T^n` is `genStep^[n]` (41_scalar_engine.md R81). -/
def genStep (g : GenState) : GenState := (xstep g.1 g.2).2

/-! ## The jump -/

/-- The bits of the jump polynomial in the order they are scanned: word 0 first, each word from bit 0 to bit 63
(41_scalar_engine.md R85). -/
def jumpBits (poly0 poly1 : Word) : List Bool :=
  (List.range 128).map fun i => if i < 64 then poly0.getLsbD i else poly1.getLsbD (i - 64)

/-- The loop of R85 from an accumulator and a running copy: at a set bit the copy goes into the accumulator; the copy
steps at every bit, set or clear (C2, D12). -/
def jumpLoop : List Bool → GenState → GenState → GenState
  | [], acc, _ => acc
  | bit :: bits, acc, g => jumpLoop bits (if bit then (xorWord acc.1 g.1, xorWord acc.2 g.2) else acc) (genStep g)

/-- The state change of R85 for any polynomial, the parameter R7 leaves open. -/
def jumpWith (poly0 poly1 : Word) (g : GenState) : GenState := jumpLoop (jumpBits poly0 poly1) (0#64, 0#64) g

/-- The state change of SJUMP (41_scalar_engine.md R85, with the polynomial of R87). -/
def jump (g : GenState) : GenState := jumpWith Config.jumpPoly0 Config.jumpPoly1 g

/-! ## The vector engine -/

/-- Lane k of the lane array: the pair `(vs0[k], vs1[k])` (10_state.md R25). -/
def Registers.lane (r : Registers) (k : Fin 4) : GenState := (r.vs0.get k, r.vs1.get k)

/-- The scalar engine's pair `(ss0, ss1)` (10_state.md R22). -/
def Registers.scalar (r : Registers) : GenState := (r.ss0, r.ss1)

/-- `(ss0, ss1) <- g`. -/
def Registers.setScalar (r : Registers) (g : GenState) : Registers := { r with ss0 := g.1, ss1 := g.2 }

/-- `vstep()`: the lockstep step, its four result words and the registers after it (42_vector_engine.md R101). -/
def Registers.vstep (r : Registers) : Lanes Word × Registers :=
  let out := Lanes.tabulate fun k => xstep (r.vs0.get k) (r.vs1.get k)
  (Lanes.tabulate fun k => (out.get k).1,
    { r with
      vs0 := Lanes.tabulate fun k => (out.get k).2.1
      vs1 := Lanes.tabulate fun k => (out.get k).2.2 })

/-- The refill inside VDRAW: one lockstep step, then `vbuf[k]` receives lane k's result (42_vector_engine.md R104,
R105). -/
def Registers.refill (r : Registers) : Registers :=
  let (results, r') := r.vstep
  { r' with vbuf := results }

/-- One pass of `for k in 0..3: vs0[k] <- sm_next()` (42_vector_engine.md R103). -/
def Registers.seedLane0 (r : Registers) (k : Fin 4) : Registers :=
  let (w, r') := r.smNext
  { r' with vs0 := r'.vs0.set k w }

/-- One pass of `for k in 0..3: vs1[k] <- sm_next()` (42_vector_engine.md R103). -/
def Registers.seedLane1 (r : Registers) (k : Fin 4) : Registers :=
  let (w, r') := r.smNext
  { r' with vs1 := r'.vs1.set k w }

/-- The buffer slot number n - 1, for n in 1..4 (42_vector_engine.md R104). -/
def slotBelow (n : Nat) : Fin 4 := Fin.ofNat 4 (n - 1)

/-! ## The end of a command -/

/-- `respond(v)` or `respond()`: the command ends with the registers `r` and delivers its completion (00_scope.md R18,
30_encoding.md R50, R53). -/
def State.respond (s : State) (r : Registers) (c : Completion) : State := { s with regs := r, sent := s.sent ++ [c] }

end Sys2Proof.Machine
end

