-- ==== Sys2Proof/Machine/ScalarEngine.lean ====
section
/-! DEFINITION. The commands of unit SC, `xoroshiro128_scalar_engine` (41_scalar_engine.md). That SSEED uses the one
shared `smx`, and in which order, is the spec's own decision (D6, D7; DESIGN CHOICE, entry 8). -/

namespace Sys2Proof.Machine

/-- `smx <- seed; ss0 <- sm_next(); ss1 <- sm_next()`: the first word to `ss0`, the second to `ss1` (R83, D7). -/
def Registers.seedScalar (r : Registers) (seed : Word) : Registers :=
  let (w0, r0) := (r.smLoad seed).smNext
  let (w1, r1) := { r0 with ss0 := w0 }.smNext
  { r1 with ss1 := w1 }

/-- One `xstep` of the scalar engine: its result word, the sum before the step, and the registers after it (R84). -/
def Registers.drawScalar (r : Registers) : Word × Registers :=
  let (w, a2, b2) := xstep r.ss0 r.ss1
  (w, { r with ss0 := a2, ss1 := b2 })

/-- The scan of the jump polynomial replaces the state by the accumulator (R85). -/
def Registers.jumpScalar (r : Registers) : Registers := r.setScalar (jump r.scalar)

/-- SSEED seed (R83). -/
def execSseed (seed : Word) (s : State) : Outcome := .next (s.respond (s.regs.seedScalar seed) .done)

/-- SDRAW: `respond(r)` with the sum of the state before the step (R84). -/
def execSdraw (s : State) : Outcome := .next (s.respond s.regs.drawScalar.2 (.word s.regs.drawScalar.1))

/-- SJUMP (R85). -/
def execSjump (s : State) : Outcome := .next (s.respond s.regs.jumpScalar .done)

end Sys2Proof.Machine
end

