-- ==== Sys2Proof/Machine/SeedExpander.lean ====
section
/-! DEFINITION. The commands of unit SM, `seed_expander_splitmix64` (40_seed_expander.md). -/

namespace Sys2Proof.Machine

/-- SMINIT seed: `smx <- seed; respond()` (R73). -/
def execSminit (seed : Word) (s : State) : Outcome := .next (s.respond (s.regs.smLoad seed) .done)

/-- SMNEXT: `respond(sm_next())` (R72). -/
def execSmnext (s : State) : Outcome := .next (s.respond s.regs.smNext.2 (.word s.regs.smNext.1))

end Sys2Proof.Machine
end

