-- ==== Sys2Proof/Machine/VectorEngine.lean ====
section
/-! DEFINITION. The commands of the vector engine: units VL, `xoroshiro128_vector_lane_array`, and VB,
`prng_vector_extraction_buffer` (42_vector_engine.md). The order of the words and the code of the cursor are the spec's own decisions
(D6 to D9; DESIGN CHOICE, entry 8). -/

namespace Sys2Proof.Machine

/-- `smx <- seed`, four words into `vs0`, four into `vs1`, lane 0 first, then `vcur <- 0`; `vbuf` is not written (R103,
D7, D9). -/
def Registers.seedVector (r : Registers) (seed : Word) : Registers :=
  let r0 := r.smLoad seed
  let r1 := laneOrder.foldl Registers.seedLane0 r0
  let r2 := laneOrder.foldl Registers.seedLane1 r1
  { r2 with vcur := 0#2 }

/-- The first half of VDRAW: a refill when the buffer is empty, and `n`, the number of words the buffer then holds
(R104). -/
def Registers.fillBuffer (r : Registers) : Registers × Nat :=
  if r.vcur = 0#2 then (r.refill, Config.bufWords) else (r, r.vcur.toNat)

/-- VDRAW's result word and the registers after it: the highest slot not yet returned, and the cursor one lower (R104,
R106). -/
def Registers.drawVector (r : Registers) : Word × Registers :=
  let (r', n) := r.fillBuffer
  (r'.vbuf.get (slotBelow n), { r' with vcur := BitVec.ofNat 2 (n - 1) })

/-- VSEED seed (R103). -/
def execVseed (seed : Word) (s : State) : Outcome := .next (s.respond (s.regs.seedVector seed) .done)

/-- VDRAW (R104). -/
def execVdraw (s : State) : Outcome := .next (s.respond s.regs.drawVector.2 (.word s.regs.drawVector.1))

end Sys2Proof.Machine
end

