-- ==== Sys2Proof/Machine/Dispatch.lean ====
section
/-! DEFINITION. One arm per command (30_encoding.md R55). -/

namespace Sys2Proof.Machine

/-- The effect of a command, one atomic step (20_memory.md R43). -/
def exec (i : Instr) (s : State) : Host.Outcome State Fault Refusal :=
  match i with
  | .sminit seed => Sys2Proof.Machine.execSminit seed s
  | .smnext => Sys2Proof.Machine.execSmnext s
  | .sseed seed => Sys2Proof.Machine.execSseed seed s
  | .sdraw => Sys2Proof.Machine.execSdraw s
  | .sjump => Sys2Proof.Machine.execSjump s
  | .vseed seed => Sys2Proof.Machine.execVseed seed s
  | .vdraw => Sys2Proof.Machine.execVdraw s

end Sys2Proof.Machine
end

