-- ==== Sys2Proof/Machine/Port.lean ====
section
/-! DEFINITION. The command port: what each host event does to the block (30_encoding.md R50, R56;
70_reset_and_hazards.md R140, R141, R146, R147). -/

namespace Sys2Proof.Machine

/-- The host presents a command word: one of the seven commands runs as one atomic step; a reserved code is refused
(30_encoding.md R50, R56; 60_exceptions.md R127). -/
def acceptCommand (cw : CmdWord) (s : State) : Outcome :=
  match decode cw with
  | .command i => exec i s
  | .invalid op => .refused (.reservedCode op)

/-- A reset event. A command in progress is abandoned and gives no completion (R141); whether or not there was one,
the registers hold afterwards whatever the event says (R140). That a reserved code was being presented is refused all
the same, since a model refuses the issue of one (60_exceptions.md R127; DEDUCED, entry 4: safe). -/
def acceptReset (abandoned : Option CmdWord) (after : Registers) (s : State) : Outcome :=
  match abandoned.map decode with
  | .some (.invalid op) => .refused (.reservedCode op)
  | .some (.command _) => .next { s with regs := after }
  | .none => .next { s with regs := after }

/-- What one host event does. -/
def acceptEvent (e : HostEvent) (s : State) : Outcome :=
  match e with
  | .command cw => acceptCommand cw s
  | .reset abandoned after => acceptReset abandoned after s
  | .overlap _ _ => .refused .overlappingCommands

/-- The block with no event at its port: idle, and nothing changes (60_exceptions.md R131). -/
def idle (s : State) : Outcome := .next s

/-- `s` with a command word as the next thing the host presents. -/
def State.present (s : State) (cw : CmdWord) : State := { s with inputs := .command cw :: s.inputs }

end Sys2Proof.Machine
end

