-- ==== Sys2Proof/Machine/Step.lean ====
section
/-! DEFINITION. One step of the machine: one host event, or nothing. -/

namespace Sys2Proof.Machine

/-- One step: the oldest host event is taken and has its effect (20_memory.md R45); with none the block stays idle
(60_exceptions.md R131). -/
def step (s : State) : Host.Outcome State Fault Refusal :=
  match s.inputs with
  | [] => idle s
  | e :: rest => acceptEvent e { s with inputs := rest }

/-- `s` with the command word of the opcode table's `w` as the next thing the host presents (entry 2). -/
def State.withFetchWord (s : State) (nbits w : Nat) : State := s.present (tableCommandWord nbits w)

end Sys2Proof.Machine
end

