-- ==== Sys2Proof/Machine/Assembler.lean ====
section
/-! DEFINITION. The assembler beside the machine: a line of text (30_encoding.md R59), the pseudo-commands (R60 to R62)
and the bounds (R63). Nothing here is behaviour of the block; `SCTOR` and `VCTOR` are host macros whose seed is a free
64-bit input (R61, 60_exceptions.md R132). -/

namespace Sys2Proof.Machine

/-- The word an operand stands for (R59, R63). -/
def operandValue : AsmOperand → Word
  | .number n => BitVec.ofNat 64 n
  | .outMin => Config.outMin
  | .outMax => Config.outMax

/-- The command an operation assembles to with a seed in hand: a pseudo-command to the seed command it stands for, one
command each (R60, R61, R62). -/
def assembleOp (op : AsmOp) (seed : Word) : Instr :=
  match op with
  | .sminit => .sminit seed
  | .smnext => .smnext
  | .sseed => .sseed seed
  | .sdraw => .sdraw
  | .sjump => .sjump
  | .vseed => .vseed seed
  | .vdraw => .vdraw
  | .sreseed => .sseed seed
  | .vreseed => .vseed seed
  | .sctor => .sseed seed
  | .vctor => .vseed seed
  | .smctor => .sminit seed

/-- The command of a line, where `entropy` is the word the host obtains for SCTOR and VCTOR (R61); an ill-formed line
has none. -/
def assemble (entropy : Word) (l : AsmLine) : Option Instr :=
  if l.wf then some (assembleOp l.op ((l.operand.map operandValue).getD entropy)) else none

/-! ## Text (R59) -/

/-- The text of a line before its comment. -/
def beforeComment (line : List Char) : List Char := line.takeWhile (· != ';')

/-- The words of a line, separated by spaces or tabs (DESIGN CHOICE, entry 9: safe); `word` is the one being read, last
character first. -/
def wordsFrom : List Char → List Char → List (List Char)
  | word, [] => if word.isEmpty then [] else [word.reverse]
  | word, c :: cs =>
    if c == ' ' || c == '\t' then (if word.isEmpty then [] else [word.reverse]) ++ wordsFrom [] cs
    else wordsFrom (c :: word) cs

/-- A mnemonic in capitals (R59) or a pseudo-command's name (R60 to R62). -/
def readOp : List Char → Option AsmOp
  | ['S', 'M', 'I', 'N', 'I', 'T'] => some .sminit
  | ['S', 'M', 'N', 'E', 'X', 'T'] => some .smnext
  | ['S', 'S', 'E', 'E', 'D'] => some .sseed
  | ['S', 'D', 'R', 'A', 'W'] => some .sdraw
  | ['S', 'J', 'U', 'M', 'P'] => some .sjump
  | ['V', 'S', 'E', 'E', 'D'] => some .vseed
  | ['V', 'D', 'R', 'A', 'W'] => some .vdraw
  | ['S', 'R', 'E', 'S', 'E', 'E', 'D'] => some .sreseed
  | ['V', 'R', 'E', 'S', 'E', 'E', 'D'] => some .vreseed
  | ['S', 'C', 'T', 'O', 'R'] => some .sctor
  | ['V', 'C', 'T', 'O', 'R'] => some .vctor
  | ['S', 'M', 'C', 'T', 'O', 'R'] => some .smctor
  | _ => none

/-- The runs of digit characters R59's two notations use: the first character of a run, how many follow in order
(that one counted), and the value of the first. Small letters are the model's (DESIGN CHOICE, entry 9: safe). -/
def digitRuns : List (Char × Nat × Nat) := [('0', 10, 0), ('A', 6, 10), ('a', 6, 10)]

/-- The place of a character in a run of `count` characters from `first` on, if it stands in it. -/
def placeInRun (c first : Char) (count : Nat) : Option Nat :=
  (List.range count).find? fun place => first.toNat + place == c.toNat

/-- The value of a digit: that of its run's first character and its place in the run (R59). -/
def digitValue (c : Char) : Option Nat :=
  digitRuns.findSome? fun run => (placeInRun c run.1 run.2.1).map (run.2.2 + ·)

/-- The number a run of digits writes in the given base, after the digits read so far. -/
def readDigits (base acc : Nat) : List Char → Option Nat
  | [] => some acc
  | c :: cs =>
    match digitValue c with
    | some d => if d < base then readDigits base (acc * base + d) cs else none
    | none => none

/-- An operand: `0x` and hexadecimal digits, decimal digits, or a bound by name (R59, R63). -/
def readOperand : List Char → Option AsmOperand
  | [] => none
  | ['O', 'U', 'T', '_', 'M', 'I', 'N'] => some .outMin
  | ['O', 'U', 'T', '_', 'M', 'A', 'X'] => some .outMax
  | '0' :: 'x' :: d :: ds => (readDigits 16 0 (d :: ds)).map .number
  | d :: ds => (readDigits 10 0 (d :: ds)).map .number

/-- A line of text: `some none` where it holds no command, `none` where it cannot be read (R59). R59 writes a result after
`->` 'in examples' and does not say whether a line of a program may carry one; here `->` is no part of a line, and a line
that holds it before a comment cannot be read (DESIGN CHOICE, entry 9: safe). -/
def readLine (line : List Char) : Option (Option AsmLine) :=
  match wordsFrom [] (beforeComment line) with
  | [] => some none
  | [m] => (readOp m).map fun op => some ⟨op, none⟩
  | [m, x] =>
    match readOp m, readOperand x with
    | some op, some y => some (some ⟨op, some y⟩)
    | _, _ => none
  | _ => none

end Sys2Proof.Machine
end

