-- ==== Sys2Proof/Safety.lean ====
section
/-! DEFINITION. The terms claims are made in: runs, the answers to a list of commands, live generators, a valid staging
buffer, and what a host must keep to (30_encoding.md R56; 70_reset_and_hazards.md R143, R146, R147). -/

namespace Sys2Proof.Machine

/-! ## Runs -/

/-- `k` steps of the machine, stopping at the first refusal. -/
def run : Nat → State → Outcome
  | 0, s => .next s
  | k + 1, s =>
    match step s with
    | .next t => run k t
    | .fault f => .fault f
    | .refused r => .refused r

/-- The commands `is` one after another, each on the state the one before it left (20_memory.md R45). -/
def execAll : List Instr → State → Outcome
  | [], s => .next s
  | i :: is, s =>
    match exec i s with
    | .next t => execAll is t
    | .fault f => .fault f
    | .refused r => .refused r

/-- `s` with the commands `is` as the next things the host presents, in their order. -/
def State.presentAll (s : State) (is : List Instr) : State :=
  { s with inputs := is.map (fun i => .command (encode i)) ++ s.inputs }

/-- The commands `is` run from `s`, each with the completion it got. -/
def transcript : List Instr → State → List (Instr × Completion)
  | [], _ => []
  | i :: is, s =>
    match exec i s with
    | .next t => (t.sent.drop s.sent.length).map (fun c => (i, c)) ++ transcript is t
    | .fault _ => []
    | .refused _ => []

/-- The result words that the command `i` got in a transcript, oldest first. -/
def wordsTo (i : Instr) (l : List (Instr × Completion)) : List Word :=
  l.filterMap fun p =>
    match p.2 with
    | .word w => if p.1 = i then some w else none
    | .done => none

/-! ## Generators and the buffer -/

/-- The degenerate state: both words 0 (00_scope.md R19, 60_exceptions.md R124). -/
def zeroState : GenState := (0#64, 0#64)

/-- The scalar engine is not degenerate (10_state.md R23). -/
abbrev Registers.scalarLive (r : Registers) : Prop := r.scalar ≠ zeroState

/-- No lane is degenerate (10_state.md R25). -/
abbrev Registers.lanesLive (r : Registers) : Prop := ∀ k : Fin 4, r.lane k ≠ zeroState

/-- The slots that the cursor counts as not yet returned hold the result words of the latest lockstep step: slot k
holds the result of a generator state that the step took to what lane k holds now (10_state.md R27, R28, R30). -/
def Registers.bufferValid (r : Registers) : Prop :=
  ∀ k : Fin 4, k.val < r.vcur.toNat → ∃ g : GenState, genStep g = r.lane k ∧ genResult g = r.vbuf.get k

/-- The n-th word of the expander's sequence from the seed `s`, n from 1 (40_seed_expander.md R74). -/
def expanderWord (s : Word) (n : Nat) : Word := mix64 (s + BitVec.ofNat 64 n * Config.smGamma)

/-- The state VSEED leaves lane k in, from the seed `s` (42_vector_engine.md R103, R108). -/
def seededLane (s : Word) (k : Fin 4) : GenState := (expanderWord s (k.val + 1), expanderWord s (k.val + 5))

/-- The state SSEED leaves the scalar engine in, from the seed `s` (41_scalar_engine.md R83). -/
def seededScalar (s : Word) : GenState := (expanderWord s 1, expanderWord s 2)

/-- Bit i of the jump polynomial `JUMP_POLY1 ++ JUMP_POLY0` (41_scalar_engine.md R86). -/
def jumpCoefficient (poly0 poly1 : Word) (i : Nat) : Bool := (poly1 ++ poly0 : BitVec (64 + 64)).getLsbD i

/-! ## What a host must keep to -/

/-- An event the spec gives an effect: a defined command, or a reset, while idle or during a defined command
(30_encoding.md R56; 70_reset_and_hazards.md R141, R147). -/
def HostEvent.defined : HostEvent → Bool
  | .command cw =>
    match decode cw with
    | .command _ => true
    | .invalid _ => false
  | .reset abandoned _ =>
    match abandoned.map decode with
    | .some (.invalid _) => false
    | .some (.command _) => true
    | .none => true
  | .overlap _ _ => false

/-- The next event at the port is a reset. -/
def State.resetNext (s : State) : Bool :=
  match s.inputs with
  | .reset _ _ :: _ => true
  | _ => false

/-- What has been seeded since the last reset (70_reset_and_hazards.md R143). -/
structure Seeded where
  expander : Bool
  scalar : Bool
  vector : Bool
deriving DecidableEq, Repr

/-- Right after a reset nothing has been seeded (70_reset_and_hazards.md R141). -/
def Seeded.nothing : Seeded := ⟨false, false, false⟩

/-- The boot rule: SDRAW and SJUMP only after SSEED, VDRAW only after VSEED, SMNEXT only after SMINIT, SSEED or VSEED
(70_reset_and_hazards.md R143). -/
def Seeded.allows (b : Seeded) : Instr → Bool
  | .sminit _ => true
  | .smnext => b.expander
  | .sseed _ => true
  | .sdraw => b.scalar
  | .sjump => b.scalar
  | .vseed _ => true
  | .vdraw => b.vector

/-- What has been seeded once a command has run (70_reset_and_hazards.md R143; each seed command loads `smx`). -/
def Seeded.after (b : Seeded) : Instr → Seeded
  | .sminit _ => { b with expander := true }
  | .smnext => b
  | .sseed _ => { b with expander := true, scalar := true }
  | .sdraw => b
  | .sjump => b
  | .vseed _ => { b with expander := true, vector := true }
  | .vdraw => b

/-- What has been seeded once the host event `e` has happened, `none` where the host must not let it happen: no
reserved code (30_encoding.md R56), no overlap (R146, R147), and the boot rule (R143), which starts again at every reset
(R140, R141). -/
def Seeded.afterEvent (b : Seeded) : HostEvent → Option Seeded
  | .command cw =>
    match decode cw with
    | .command i => if b.allows i then some (b.after i) else none
    | .invalid _ => none
  | .reset abandoned after => if (HostEvent.reset abandoned after).defined then some Seeded.nothing else none
  | .overlap _ _ => none

/-- The host keeps to the spec in all these events, one after another. -/
def hostKeepsTo : Seeded → List HostEvent → Bool
  | _, [] => true
  | b, e :: es =>
    match b.afterEvent e with
    | some b' => hostKeepsTo b' es
    | none => false

/-- Two register contents agree on every unit seeded since the last reset: what is still unspecified from the reset may
differ, and so may buffer slots already returned (70_reset_and_hazards.md R140, R143; 10_state.md R28). -/
def Seeded.agree (b : Seeded) (r r' : Registers) : Prop :=
  (b.expander = true → r.smx = r'.smx) ∧
    (b.scalar = true → r.scalar = r'.scalar) ∧
    (b.vector = true → r.vcur = r'.vcur ∧ (∀ k : Fin 4, r.lane k = r'.lane k) ∧
      ∀ k : Fin 4, k.val < r.vcur.toNat → r.vbuf.get k = r'.vbuf.get k)

/-! ## Where a seeded stream stands

A position is the seed of an engine's last seed command and the number of draws its state stands for since. -/

/-- The next word of the scalar stream at a position: draw number `p.2`, from 0, after SSEED `p.1` (41_scalar_engine.md
R92). -/
def scalarWord (p : Word × Nat) : Word := genResult (genStep^[p.2] (seededScalar p.1))

/-- The scalar engine stands at the position `p` (41_scalar_engine.md R83, R84). -/
abbrev Registers.atScalar (r : Registers) (p : Word × Nat) : Prop := r.scalar = genStep^[p.2] (seededScalar p.1)

/-- Where a command takes the scalar engine's position: SDRAW one draw on, SJUMP 2^64 draws on (41_scalar_engine.md R83,
R84, R86); the commands to the other units leave it (10_state.md R22). -/
def scalarPosition (p : Word × Nat) : Instr → Word × Nat
  | .sminit _ => p
  | .smnext => p
  | .sseed seed => (seed, 0)
  | .sdraw => (p.1, p.2 + 1)
  | .sjump => (p.1, p.2 + Config.jumpDistance)
  | .vseed _ => p
  | .vdraw => p

/-- The next word of the vector stream at a position: lane 3 first, a lockstep step every four words
(42_vector_engine.md R106, R108). -/
def vectorWord (p : Word × Nat) : Word :=
  genResult (genStep^[p.2 / 4] (seededLane p.1 (Fin.ofNat 4 (3 - p.2 % 4))))

/-- The vector engine stands at the position `p`: of the words of the latest lockstep step the cursor counts those not
yet returned, those slots hold them, and each lane is as many steps on as there were refills (42_vector_engine.md R103
to R107). -/
abbrev Registers.atVector (r : Registers) (p : Word × Nat) : Prop :=
  r.vcur.toNat = (4 - p.2 % 4) % 4 ∧
    (∀ k : Fin 4, r.lane k = genStep^[(p.2 + 3) / 4] (seededLane p.1 k)) ∧
    ∀ k : Fin 4, k.val < r.vcur.toNat → r.vbuf.get k = genResult (genStep^[p.2 / 4] (seededLane p.1 k))

/-- Where a command takes the vector engine's position: VDRAW one draw on (42_vector_engine.md R103, R104); the commands
to the other units leave it (10_state.md R25). -/
def vectorPosition (p : Word × Nat) : Instr → Word × Nat
  | .sminit _ => p
  | .smnext => p
  | .sseed _ => p
  | .sdraw => p
  | .sjump => p
  | .vseed seed => (seed, 0)
  | .vdraw => (p.1, p.2 + 1)

end Sys2Proof.Machine
end

