-- ==== Sys2Proof/Certificates/Slice0/Obligations.lean ====
section
/-! DEFINITION. The statements for the provers. Each docstring names the rule or the passage of spec/ it formalises; where
a passage is the spec's own decision or derivation, or rests on a choice of the model's, it says so. -/

open Sys2Proof Sys2Proof.Machine

/-! ## Encoding -/

/-- 30_encoding.md R65 (the spec's decision D3, D4 and its derivation): the decoder is total, seven values of `op` give a
command and nine `invalid`; decoding an encoded well-formed command gives it back, and encoding a decoded word gives the
word back, with `data` cleared where the command has no operand. -/
def Obligations.DecoderAndEncoderAreInverse : Prop :=
  (∀ cw : CmdWord, (∃ i, decode cw = .command i) ↔
      opOf cw ∈ [0x0#4, 0x1#4, 0x4#4, 0x5#4, 0x6#4, 0x8#4, 0x9#4]) ∧
    (∀ cw : CmdWord, decode cw = .invalid (opOf cw) ↔
      opOf cw ∈ [0x2#4, 0x3#4, 0x7#4, 0xA#4, 0xB#4, 0xC#4, 0xD#4, 0xE#4, 0xF#4]) ∧
    (∀ i : Instr, i.wf = true → decode (encode i) = .command i) ∧
    (∀ (cw : CmdWord) (i : Instr), decode cw = .command i →
      encode i = if i.operand.isSome then cw else cw &&& 0xF0000000000000000#68)

/-- The opcode map of 30_encoding.md R55 (decision D3): a command word selects the row whose `match` it agrees with under
the `mask`, and the seed of a seed command is `cw[63:0]` whole. -/
def Obligations.OpcodeMapSelectsByMaskAndMatch : Prop :=
  ∀ (cw : CmdWord) (i : Instr), decode cw = .command i ↔
    cw &&& 0xF0000000000000000#68 = rowMatch i ∧ ∀ seed, i.operand = some seed → seed = BitVec.setWidth 64 cw

/-- 30_encoding.md R54 and R65 (decision D4): two words with the same `op` decode alike; without an operand to the same
command whatever their `data`, with one to the command of their own `data`. -/
def Obligations.DataFieldIsTheSeedOrIgnored : Prop :=
  ∀ (cw cw' : CmdWord) (i : Instr), opOf cw = opOf cw' → decode cw = .command i →
    (i.operand = none → decode cw' = .command i) ∧
      (∀ seed, i.operand = some seed →
        ∃ i', decode cw' = .command i' ∧ rowMatch i' = rowMatch i ∧ i'.operand = some (BitVec.setWidth 64 cw'))

/-- Words of 95_test_vectors.md section 7, one per command and two reserved ones. -/
def Obligations.WordsOfTheSpecDecode : Prop :=
  decode 0x0000000000001E240#68 = .command (.sminit 0x1E240#64) ∧
    decode 0x1FFFFFFFFFFFFFFFF#68 = .command .smnext ∧
    decode 0x4FFFFFFFFFFFFFFFF#68 = .command (.sseed 0xFFFFFFFFFFFFFFFF#64) ∧
    decode 0x500000000DEADBEEF#68 = .command .sdraw ∧
    decode 0x60000000000000000#68 = .command .sjump ∧
    decode 0x8000000000001E240#68 = .command (.vseed 0x1E240#64) ∧
    decode 0x90000000000000000#68 = .command .vdraw ∧
    decode 0x20000000000000000#68 = .invalid 0x2#4 ∧
    decode 0xA0000000000000000#68 = .invalid 0xA#4

/-! ## The port -/

/-- 30_encoding.md R50 (decision D2): when the next thing the host presents is a word that decodes to a command, the step
takes it off the port and runs exactly that command. -/
def Obligations.StepRunsThePresentedCommand : Prop :=
  ∀ (s : State) (cw : CmdWord) (rest : List HostEvent) (i : Instr),
    s.inputs = .command cw :: rest → decode cw = .command i → step s = exec i { s with inputs := rest }

/-- 60_exceptions.md R120, 41_scalar_engine.md R93 and 30_encoding.md R50 and R53 (decisions D2 and D23): every command
completes from every state, with exactly one completion, which carries a word for SMNEXT, SDRAW and VDRAW only; and no
step is a fault. That completions are kept as a list is the model's choice (entry 3, DESIGN CHOICE). -/
def Obligations.EveryCommandCompletes : Prop :=
  (∀ (i : Instr) (s : State), ∃ t c, exec i s = .next t ∧ t.inputs = s.inputs ∧ t.sent = s.sent ++ [c] ∧
      ((∃ w, c = .word w) ↔ (i = .smnext ∨ i = .sdraw ∨ i = .vdraw))) ∧
    ∀ (s : State) (f : Fault), step s ≠ .fault f

/-- 20_memory.md R45 and R43: commands presented one after another run one at a time in that order, each on the state
the one before it left, and their completions are delivered in the same order, one each. -/
def Obligations.CommandsRunInTheOrderPresented : Prop :=
  ∀ (is : List Instr) (s : State),
    run is.length (s.presentAll is) = execAll is s ∧
      ∃ t, execAll is s = .next t ∧ t.inputs = s.inputs ∧
        (transcript is s).map (·.1) = is ∧ t.sent = s.sent ++ (transcript is s).map (·.2)

/-- 60_exceptions.md R131 (nothing but a command changes the state; the reading of a step with nothing presented as an
idle step is the model's, entry 2). -/
def Obligations.IdleStepChangesNothing : Prop := ∀ s : State, s.inputs = [] → step s = .next s

/-- 30_encoding.md R56, 60_exceptions.md R127 (decision D5): a reserved code decodes to `invalid` and the step on it is a
refusal, whatever `data` and the state are. -/
def Obligations.ReservedCodesAreRefused : Prop :=
  ∀ cw : CmdWord, opOf cw ∈ [0x2#4, 0x3#4, 0x7#4, 0xA#4, 0xB#4, 0xC#4, 0xD#4, 0xE#4, 0xF#4] →
    decode cw = .invalid (opOf cw) ∧
      ∀ (s : State) (rest : List HostEvent), s.inputs = .command cw :: rest →
        step s = .refused (.reservedCode (opOf cw))

/-- 30_encoding.md R56, 60_exceptions.md R120 and R127, 70_reset_and_hazards.md R147 (decisions D5, D26): a step is refused
exactly when the next event is one the spec gives no effect: a reserved code or an overlap of commands. That a reset
during a defined command has an effect is 70_reset_and_hazards.md R141; that one during a word with a reserved code is
refused is the model's deduction from R127 (entry 4, DEDUCED). -/
def Obligations.RefusedOnlyForUndefinedEvents : Prop :=
  ∀ s : State, (∃ r, step s = .refused r) ↔ ∃ e rest, s.inputs = e :: rest ∧ e.defined = false

/-! ## Reset -/

/-- 70_reset_and_hazards.md R140 and R141 (decision D13): a reset leaves in the registers whatever the event says, for
every content; a command it arrives in is abandoned and gives no completion. -/
def Obligations.ResetReplacesEveryRegister : Prop :=
  ∀ (s : State) (after : Registers) (rest : List HostEvent),
    (s.inputs = .reset none after :: rest → step s = .next ⟨after, rest, s.sent⟩) ∧
      ∀ (cw : CmdWord) (i : Instr), decode cw = .command i → s.inputs = .reset (some cw) after :: rest →
        step s = .next ⟨after, rest, s.sent⟩

/-- 70_reset_and_hazards.md R142: after a reset, whatever it leaves in the registers and whatever was delivered before it,
the block is idle, and it accepts and completes any of the seven commands. That an idle block takes a step that changes
nothing is the model's reading of R131 and R140 (entry 2, DEDUCED). -/
def Obligations.AfterResetEveryCommandIsAccepted : Prop :=
  ∀ (after : Registers) (sent : List Completion),
    let s : State := { State.afterReset after with sent := sent }
    step s = .next s ∧ ∀ i : Instr, ∃ t, exec i s = .next t ∧ step (s.present (encode i)) = .next t

/-- 70_reset_and_hazards.md R144 (with the derivations of R90, R91 and R111): from every state, so after every reset
whatever it left in the registers, an engine once seeded is never degenerate, whatever commands follow. -/
def Obligations.SeededEnginesStayLive : Prop :=
  ∀ (seed : Word) (is : List Instr) (s : State),
    (∃ t, execAll (.sseed seed :: is) s = .next t ∧ t.regs.scalarLive) ∧
      ∃ t, execAll (.vseed seed :: is) s = .next t ∧ t.regs.lanesLive

/-! ## Word arithmetic -/

/-- 00_scope.md R11 to R15, with their derived corners: `+` and `*` modulo 2^64, `^` bit by bit, `<<` truncating and `>>`
logical; multiplication by an odd constant and the xor-shift are bijections that fix 0. -/
def Obligations.WordOperatorsAreModular : Prop :=
  (∀ a b : Word, (addWord a b).toNat = (a.toNat + b.toNat) % 2 ^ 64 ∧
      (mulWord a b).toNat = (a.toNat * b.toNat) % 2 ^ 64 ∧
      ∀ i, (xorWord a b).getLsbD i = (a.getLsbD i ^^ b.getLsbD i)) ∧
    (∀ (a : Word) (k : Nat), 0 < k → k < 64 →
      (shlWord a k).toNat = (a.toNat * 2 ^ k) % 2 ^ 64 ∧ (shrWord a k).toNat = a.toNat / 2 ^ k) ∧
    (∀ c : Word, c.toNat % 2 = 1 → Function.Bijective (fun a => mulWord a c) ∧ mulWord 0#64 c = 0#64) ∧
    ∀ k : Nat, 0 < k → k < 64 → Function.Bijective (xorShiftRight k) ∧ xorShiftRight k 0#64 = 0#64

/-- 00_scope.md R16, with its derived corners: bit i goes to bit (i + k) mod 64; the source's two literal checks; a
bijection, linear over exclusive or, fixing 0 and all-ones. -/
def Obligations.RotateLeftMovesEveryBit : Prop :=
  (∀ (a : Word) (k i : Nat), 0 < k → k < 64 → i < 64 → (rotl a k).getLsbD ((i + k) % 64) = a.getLsbD i) ∧
    (rotl 1#64 24).toNat = 16777216 ∧ (rotl 1#64 37).toNat = 137438953472 ∧
    ∀ k : Nat, 0 < k → k < 64 →
      Function.Bijective (fun a => rotl a k) ∧ rotl 0#64 k = 0#64 ∧ rotl (BitVec.allOnes 64) k = BitVec.allOnes 64 ∧
        ∀ a b : Word, rotl (a ^^^ b) k = rotl a k ^^^ rotl b k

/-! ## The seed expander -/

/-- 40_seed_expander.md R73: SMINIT loads `smx` with the seed, returns nothing and touches nothing else. -/
def Obligations.SminitLoadsTheCounter : Prop :=
  ∀ (seed : Word) (s : State),
    exec (.sminit seed) s = .next { s with regs := { s.regs with smx := seed }, sent := s.sent ++ [.done] }

/-- 40_seed_expander.md R71, in the word operators of Lean's library; the shift amounts 30, 27, 31 are the spec's from
general knowledge (entry 6). -/
def Obligations.Mix64IsTheTwoRoundMixer : Prop :=
  ∀ z : Word,
    let a := z ^^^ (z >>> 30)
    let b := a * 0xBF58476D1CE4E5B9#64
    let c := b ^^^ (b >>> 27)
    let d := c * 0x94D049BB133111EB#64
    mix64 z = d ^^^ (d >>> 31)

/-- 40_seed_expander.md R72: SMNEXT advances `smx` by SM_GAMMA and returns `mix64` of the new value, touching nothing
else; the result is 0 exactly when the new `smx` is 0 (the spec's derivation, R75); and n SMNEXT bring the registers back
exactly when 2^64 divides n (the spec's derivation from R11, SM_GAMMA being odd). -/
def Obligations.SmnextReturnsTheMixedCounter : Prop :=
  (∀ s : State,
      exec .smnext s = .next { s with
        regs := { s.regs with smx := s.regs.smx + 0x9E3779B97F4A7C15#64 }
        sent := s.sent ++ [.word (mix64 (s.regs.smx + 0x9E3779B97F4A7C15#64))] }) ∧
    (∀ x : Word, mix64 x = 0#64 ↔ x = 0#64) ∧
    ∀ (s : State) (n : Nat), ∃ t, execAll (List.replicate n .smnext) s = .next t ∧ (t.regs = s.regs ↔ 2 ^ 64 ∣ n)

/-- 40_seed_expander.md R75 (the spec's derivation): whatever the three shift amounts in 1 to 63, `mix64` is a bijection
fixing 0; draws of one sequence whose indices differ by less than 2^64 are different words, and among 2^64 successive
ones exactly one is 0. -/
def Obligations.Mix64IsABijectionFixingZero : Prop :=
  (∀ sh1 sh2 sh3 : Nat, 0 < sh1 → sh1 < 64 → 0 < sh2 → sh2 < 64 → 0 < sh3 → sh3 < 64 →
      Function.Bijective (mix64With sh1 sh2 sh3) ∧ mix64With sh1 sh2 sh3 0#64 = 0#64) ∧
    (∀ (s : Word) (m n : Nat), m < n → n - m < 2 ^ 64 → expanderWord s m ≠ expanderWord s n) ∧
    ∀ (s : Word) (m : Nat), ∃! j : Nat, j < 2 ^ 64 ∧ expanderWord s (m + j) = 0#64

/-- 40_seed_expander.md R74 and R76 (the spec's derivation): SMINIT and then n SMNEXT return the first n words of the
seed's sequence, from every state, and leave `smx` at seed + n * SM_GAMMA and every other register alone. -/
def Obligations.ExpanderSequenceDependsOnTheSeedOnly : Prop :=
  ∀ (seed : Word) (n : Nat) (s : State), ∃ t,
    execAll (.sminit seed :: List.replicate n .smnext) s = .next t ∧
      t.regs = { s.regs with smx := seed + BitVec.ofNat 64 n * Config.smGamma } ∧
      t.sent = s.sent ++ .done :: (List.range n).map (fun j => .word (expanderWord seed (j + 1)))

/-- 10_state.md R35 (the spec's derivation from decision D6): an SMNEXT after SSEED returns the 3rd word of the seed's
sequence, and after VSEED the 9th. -/
def Obligations.SeedCommandsLeaveTheExpanderAdvanced : Prop :=
  ∀ (seed : Word) (s : State),
    (∃ t, execAll [.sseed seed, .smnext] s = .next t ∧ t.sent = s.sent ++ [.done, .word (expanderWord seed 3)]) ∧
      ∃ t, execAll [.vseed seed, .smnext] s = .next t ∧ t.sent = s.sent ++ [.done, .word (expanderWord seed 9)]

/-! ## The scalar engine -/

/-- 41_scalar_engine.md R83 (decisions D6, D7, and the closed form it derives): SSEED puts the first two words of the
seed's sequence in `ss0` and `ss1`, leaves `smx` at seed + 2 * SM_GAMMA and touches nothing else. -/
def Obligations.SseedLoadsTwoExpanderWords : Prop :=
  ∀ (seed : Word) (s : State),
    exec (.sseed seed) s = .next { s with
      regs := { s.regs with
        smx := seed + 2#64 * Config.smGamma
        ss0 := mix64 (seed + Config.smGamma)
        ss1 := mix64 (seed + 2#64 * Config.smGamma) }
      sent := s.sent ++ [.done] }

/-- 41_scalar_engine.md R80 and R84, in the word operators of Lean's library: SDRAW returns the sum of the two state words
before the update and takes both through the step with 24, 16 and 37, touching nothing else. -/
def Obligations.SdrawReturnsTheSumAndSteps : Prop :=
  ∀ s : State,
    let t := s.regs.ss1 ^^^ s.regs.ss0
    exec .sdraw s = .next { s with
      regs := { s.regs with
        ss0 := s.regs.ss0.rotateLeft 24 ^^^ t ^^^ (t <<< 16)
        ss1 := t.rotateLeft 37 }
      sent := s.sent ++ [.word (s.regs.ss0 + s.regs.ss1)] }

/-- 41_scalar_engine.md R85 and R86's `J(T)` (decision D12, and the spec's derivation; polynomial of R87, entry 7): SJUMP
replaces the state by the exclusive or, over the set bits i of the polynomial, of the state i steps on. -/
def Obligations.SjumpSumsTheStatesAtSetBits : Prop :=
  ∀ s : State,
    exec .sjump s = .next { s with
      regs := s.regs.setScalar ((List.range 128).foldl
        (fun acc j => if jumpCoefficient 0xDF900294D8F554A5#64 0x170865DF4B3201FC#64 j
          then GenState.xor acc (genStep^[j] s.regs.scalar) else acc) zeroState)
      sent := s.sent ++ [.done] }

/-- The contract of SJUMP, 41_scalar_engine.md R86: it leaves the state that 2^64 draws would leave, from every state, and
touches nothing else. (The polynomial is R87's, which the spec derived: entry 7.) -/
def Obligations.SjumpIsTwoToTheSixtyFourDraws : Prop :=
  ∀ s : State,
    exec .sjump s = .next { s with
      regs := s.regs.setScalar (genStep^[Config.jumpDistance] s.regs.scalar)
      sent := s.sent ++ [.done] }

/-- 41_scalar_engine.md R81 (the spec's derivation): `T` is linear over exclusive or, and a bijection with the inverse the
rule gives. -/
def Obligations.GeneratorStepIsLinearAndInvertible : Prop :=
  (∀ g h : GenState, genStep (GenState.xor g h) = GenState.xor (genStep g) (genStep h)) ∧
    Function.Bijective genStep ∧
    ∀ a2 b2 : Word,
      let t := b2.rotateLeft 27
      let a := (a2 ^^^ t ^^^ (t <<< 16)).rotateLeft 40
      genStep (a, t ^^^ a) = (a2, b2)

/-- 41_scalar_engine.md R88: SJUMP of the exclusive or of two states is the exclusive or of their jumps, and two SJUMP in
a row advance by 2^65 steps. -/
def Obligations.SjumpIsLinear : Prop :=
  (∀ s t u s' t' u' : State, u.regs.scalar = GenState.xor s.regs.scalar t.regs.scalar →
      exec .sjump s = .next s' → exec .sjump t = .next t' → exec .sjump u = .next u' →
      u'.regs.scalar = GenState.xor s'.regs.scalar t'.regs.scalar) ∧
    ∀ s : State, ∃ t, execAll [.sjump, .sjump] s = .next t ∧ t.regs.scalar = genStep^[2 ^ 65] s.regs.scalar

/-- 41_scalar_engine.md R89 (the spec's derivation), its first sentence: SJUMP then SDRAW and SDRAW then SJUMP leave the
same registers. -/
def Obligations.SjumpCommutesWithSdraw : Prop :=
  ∀ s : State, ∃ t u, execAll [.sjump, .sdraw] s = .next t ∧ execAll [.sdraw, .sjump] s = .next u ∧ t.regs = u.regs

/-- 41_scalar_engine.md R82 and 60_exceptions.md R124: in the all-zero state SDRAW returns 0 and SJUMP returns nothing, and
both change no register. -/
def Obligations.ZeroStateIsAFixedPoint : Prop :=
  ∀ s : State, s.regs.scalar = zeroState →
    exec .sdraw s = .next { s with sent := s.sent ++ [.word 0#64] } ∧
      exec .sjump s = .next { s with sent := s.sent ++ [.done] }

/-- 41_scalar_engine.md R82 (the spec's derivation by computation): the all-zero state is the only fixed point of `T`, and
all other states lie on one cycle of length 2^128 - 1. -/
def Obligations.LiveStatesFormOneCycle : Prop :=
  (∀ g : GenState, genStep g = g ↔ g = zeroState) ∧
    (∀ g : GenState, g ≠ zeroState → ∀ n : Nat, genStep^[n] g = g ↔ 2 ^ 128 - 1 ∣ n) ∧
    ∀ g h : GenState, g ≠ zeroState → h ≠ zeroState → ∃ n : Nat, n < 2 ^ 128 - 1 ∧ genStep^[n] g = h

/-- 41_scalar_engine.md R89 (the spec's derivation): from a live state, the streams after j and after k jumps, j < k up
to 2^64 - 2, each read for 2^64 draws, share no position; after 2^64 - 1 jumps the 2^64-th draw is at the start of the
first stream. -/
def Obligations.JumpedStreamsShareNoPosition : Prop :=
  ∀ g : GenState, g ≠ zeroState →
    (∀ j k m n : Nat, j < k → k ≤ 2 ^ 64 - 2 → m < 2 ^ 64 → n < 2 ^ 64 →
        genStep^[m] (jump^[j] g) ≠ genStep^[n] (jump^[k] g)) ∧
      genStep^[2 ^ 64 - 1] (jump^[2 ^ 64 - 1] g) = g

/-- 41_scalar_engine.md R90 (the spec's derivation): SSEED with any seed, from any state, leaves a state that is not
all-zero. -/
def Obligations.SseedLeavesALiveState : Prop :=
  ∀ (seed : Word) (s : State), ∃ t, exec (.sseed seed) s = .next t ∧ t.regs.scalarLive

/-! ## The vector engine -/

/-- 42_vector_engine.md R101: the lockstep step takes each lane through `xstep`, returns the four results lane by lane, and
touches no other register. -/
def Obligations.LockstepStepsEachLane : Prop :=
  ∀ r : Registers,
    (∀ k : Fin 4, r.vstep.1.get k = (xstep (r.vs0.get k) (r.vs1.get k)).1 ∧
        r.vstep.2.vs0.get k = (xstep (r.vs0.get k) (r.vs1.get k)).2.1 ∧
        r.vstep.2.vs1.get k = (xstep (r.vs0.get k) (r.vs1.get k)).2.2) ∧
      r.vstep.2 = { r with vs0 := r.vstep.2.vs0, vs1 := r.vstep.2.vs1 }

/-- 42_vector_engine.md R102 (the spec's derivation): the new state and the buffered result of lane k after a VDRAW that
refills depend on the old state of lane k alone. -/
def Obligations.LanesAreIndependent : Prop :=
  ∀ (s s' : State) (k : Fin 4), s.regs.vcur = 0#2 → s'.regs.vcur = 0#2 → s.regs.lane k = s'.regs.lane k →
    ∃ t t', exec .vdraw s = .next t ∧ exec .vdraw s' = .next t' ∧
      t.regs.lane k = t'.regs.lane k ∧ t.regs.vbuf.get k = t'.regs.vbuf.get k

/-- 42_vector_engine.md R103 (decisions D6, D7, D9, and the closed form it derives): VSEED puts words 1 to 4 of the seed's
sequence in `vs0[0..3]` and words 5 to 8 in `vs1[0..3]`, empties the buffer by the cursor, leaves `smx` at
seed + 8 * SM_GAMMA, and touches neither `vbuf` nor the scalar engine. -/
def Obligations.VseedLoadsTheLanes : Prop :=
  ∀ (seed : Word) (s : State),
    exec (.vseed seed) s = .next { s with
      regs := { s.regs with
        smx := seed + 8#64 * Config.smGamma
        vs0 := ⟨mix64 (seed + 1#64 * Config.smGamma), mix64 (seed + 2#64 * Config.smGamma),
          mix64 (seed + 3#64 * Config.smGamma), mix64 (seed + 4#64 * Config.smGamma)⟩
        vs1 := ⟨mix64 (seed + 5#64 * Config.smGamma), mix64 (seed + 6#64 * Config.smGamma),
          mix64 (seed + 7#64 * Config.smGamma), mix64 (seed + 8#64 * Config.smGamma)⟩
        vcur := 0#2 }
      sent := s.sent ++ [.done] }

/-- 42_vector_engine.md R111 and R112 (the spec's derivation): after VSEED with any seed, from any state, no lane is
all-zero, and different lanes have different `vs0`. -/
def Obligations.VseedLeavesLiveAndDifferentLanes : Prop :=
  ∀ (seed : Word) (s : State), ∃ t, exec (.vseed seed) s = .next t ∧ t.regs.lanesLive ∧
    ∀ j k : Fin 4, j ≠ k → t.regs.vs0.get j ≠ t.regs.vs0.get k

/-- 42_vector_engine.md R104: with the buffer empty VDRAW takes one lockstep step, fills all four slots and returns lane
3's word; with n words left it changes nothing but the cursor and returns slot n - 1. -/
def Obligations.VdrawRefillsOrReturnsTheNextSlot : Prop :=
  ∀ s : State,
    (s.regs.vcur = 0#2 → exec .vdraw s = .next { s with
        regs := { s.regs with
          vs0 := Lanes.tabulate fun k => (xstep (s.regs.vs0.get k) (s.regs.vs1.get k)).2.1
          vs1 := Lanes.tabulate fun k => (xstep (s.regs.vs0.get k) (s.regs.vs1.get k)).2.2
          vbuf := Lanes.tabulate fun k => s.regs.vs0.get k + s.regs.vs1.get k
          vcur := 3#2 }
        sent := s.sent ++ [.word (s.regs.vs0.lane3 + s.regs.vs1.lane3)] }) ∧
      (s.regs.vcur = 3#2 → exec .vdraw s = .next { s with
        regs := { s.regs with vcur := 2#2 }, sent := s.sent ++ [.word s.regs.vbuf.lane2] }) ∧
      (s.regs.vcur = 2#2 → exec .vdraw s = .next { s with
        regs := { s.regs with vcur := 1#2 }, sent := s.sent ++ [.word s.regs.vbuf.lane1] }) ∧
      (s.regs.vcur = 1#2 → exec .vdraw s = .next { s with
        regs := { s.regs with vcur := 0#2 }, sent := s.sent ++ [.word s.regs.vbuf.lane0] })

/-- The cursor's state machine, 42_vector_engine.md R107 (the spec's derivation, in the encoding of decision D8): VSEED
empties, VDRAW counts down and from EMPTY goes to HOLDS(3) with exactly one lockstep step, and returns the slot the
cursor then names; the other commands leave the cursor, the buffer and the lanes alone. -/
def Obligations.CursorStateMachine : Prop :=
  ∀ s : State,
    (∀ seed, ∃ t, exec (.vseed seed) s = .next t ∧ t.regs.vcur = 0#2 ∧ t.regs.vbuf = s.regs.vbuf) ∧
      (∃ t, exec .vdraw s = .next t ∧ t.regs.vcur = s.regs.vcur - 1#2 ∧
        t.sent = s.sent ++ [.word (t.regs.vbuf.get (Fin.ofNat 4 t.regs.vcur.toNat))] ∧
        ∀ k : Fin 4, t.regs.lane k = if s.regs.vcur = 0#2 then genStep (s.regs.lane k) else s.regs.lane k) ∧
      ∀ i : Instr, i ≠ .vdraw → (∀ seed, i ≠ .vseed seed) → ∃ t, exec i s = .next t ∧
        t.regs.vcur = s.regs.vcur ∧ t.regs.vbuf = s.regs.vbuf ∧ ∀ k : Fin 4, t.regs.lane k = s.regs.lane k

/-- The drain order, 42_vector_engine.md R106 (decision D7): from an empty buffer four VDRAW return the words of one
lockstep step, lane 3 first and lane 0 last, and leave the buffer empty again and each lane one step on. -/
def Obligations.FourDrawsDrainLanesThreeToZero : Prop :=
  ∀ s : State, s.regs.vcur = 0#2 → ∃ t,
    execAll [.vdraw, .vdraw, .vdraw, .vdraw] s = .next t ∧
      t.sent = s.sent ++ [.word (genResult (s.regs.lane 3)), .word (genResult (s.regs.lane 2)),
        .word (genResult (s.regs.lane 1)), .word (genResult (s.regs.lane 0))] ∧
      t.regs.vcur = 0#2 ∧ (∀ k : Fin 4, t.regs.lane k = genStep (s.regs.lane k)) ∧
      t.regs.smx = s.regs.smx ∧ t.regs.scalar = s.regs.scalar

/-- 42_vector_engine.md R110 (the spec's derivation): after VSEED the next VDRAW overwrites all four slots with words of
the new seed, from every state, so no word buffered before it is ever returned. -/
def Obligations.VseedDiscardsTheBuffer : Prop :=
  ∀ (seed : Word) (s : State), ∃ t, execAll [.vseed seed, .vdraw] s = .next t ∧
    (∀ k : Fin 4, t.regs.vbuf.get k = genResult (seededLane seed k) ∧
      t.regs.lane k = genStep (seededLane seed k)) ∧
    t.regs.vcur = 3#2 ∧ t.sent = s.sent ++ [.done, .word (genResult (seededLane seed 3))]

/-- 42_vector_engine.md R114 (the spec's derivation): at a refill a lane in the all-zero state stays there and gives the
word 0, and every lane, this one or another, goes one step on from its own state. -/
def Obligations.ZeroLaneStaysZero : Prop :=
  ∀ (s : State) (k : Fin 4), s.regs.vcur = 0#2 → s.regs.lane k = zeroState → ∃ t, exec .vdraw s = .next t ∧
    t.regs.lane k = zeroState ∧ t.regs.vbuf.get k = 0#64 ∧
    ∀ j : Fin 4, t.regs.lane j = genStep (s.regs.lane j) ∧ t.regs.vbuf.get j = genResult (s.regs.lane j)

/-! ## Rules about the whole machine -/

/-- The columns 'written by' of 10_state.md R20 and the last sentences of R73, R83, R103, R104, R148: what each command
leaves alone. -/
def Obligations.CommandsWriteOnlyTheirRegisters : Prop :=
  ∀ s t : State,
    (∀ i, (i = .smnext ∨ ∃ seed, i = .sminit seed) → exec i s = .next t →
        t.regs = { s.regs with smx := t.regs.smx }) ∧
      (∀ seed, exec (.sseed seed) s = .next t →
        t.regs = { s.regs with smx := t.regs.smx, ss0 := t.regs.ss0, ss1 := t.regs.ss1 }) ∧
      (∀ i, (i = .sdraw ∨ i = .sjump) → exec i s = .next t →
        t.regs = { s.regs with ss0 := t.regs.ss0, ss1 := t.regs.ss1 }) ∧
      (∀ seed, exec (.vseed seed) s = .next t →
        t.regs = { s.regs with smx := t.regs.smx, vs0 := t.regs.vs0, vs1 := t.regs.vs1, vcur := t.regs.vcur }) ∧
      (exec .vdraw s = .next t →
        t.regs = { s.regs with vs0 := t.regs.vs0, vs1 := t.regs.vs1, vbuf := t.regs.vbuf, vcur := t.regs.vcur } ∧
          (s.regs.vcur ≠ 0#2 → t.regs = { s.regs with vcur := t.regs.vcur }))

/-- 20_memory.md R43 (decision D15), its last sentence: SMINIT, SSEED and VSEED with the same seed again change no
register. -/
def Obligations.SeedCommandsAreIdempotent : Prop :=
  ∀ (seed : Word) (i : Instr) (s : State), i ∈ [Instr.sminit seed, .sseed seed, .vseed seed] →
    ∃ t u, exec i s = .next t ∧ exec i t = .next u ∧ u.regs = t.regs

/-- 41_scalar_engine.md R91 and 42_vector_engine.md R111 (the spec's derivation): every step that is not a reset keeps the
scalar engine live, and keeps every lane live. -/
def Obligations.StepsKeepGeneratorsLive : Prop :=
  ∀ s t : State, s.resetNext = false → step s = .next t →
    (s.regs.scalarLive → t.regs.scalarLive) ∧ (s.regs.lanesLive → t.regs.lanesLive)

/-- 10_state.md R30 (the spec's derivation): VSEED makes the buffer valid, and every step that is not a reset keeps it
so: a slot the cursor counts as unreturned holds its lane's word of the latest lockstep step. -/
def Obligations.StepsKeepTheBufferValid : Prop :=
  (∀ (seed : Word) (s : State), ∃ t, exec (.vseed seed) s = .next t ∧ t.regs.bufferValid) ∧
    ∀ s t : State, s.resetNext = false → s.regs.bufferValid → step s = .next t → t.regs.bufferValid

/-- Determinism of the scalar engine, 41_scalar_engine.md R92: after SSEED, whatever the state before it and whatever
commands to the other units stand between, the n-th SDRAW returns the result of the state n - 1 steps on. -/
def Obligations.ScalarStreamDependsOnTheSeedOnly : Prop :=
  ∀ (seed : Word) (is : List Instr) (s : State), (∀ i ∈ is, i ≠ .sjump ∧ ∀ x, i ≠ .sseed x) →
    wordsTo .sdraw (transcript (.sseed seed :: is) s) =
      (List.range (is.count .sdraw)).map fun n => genResult (genStep^[n] (seededScalar seed))

/-- Equivalence with four scalar generators, 42_vector_engine.md R108 and R113 (the spec's derivation): after VSEED,
whatever the state before it and whatever commands to the other units stand between, the VDRAW words are the round-robin
of the four lanes' scalar streams, lane 3 first; and no lane's state is one that SSEED could leave from any seed. -/
def Obligations.VectorStreamInterleavesFourScalarStreams : Prop :=
  (∀ (seed : Word) (is : List Instr) (s : State), (∀ i ∈ is, ∀ x, i ≠ .vseed x) →
      wordsTo .vdraw (transcript (.vseed seed :: is) s) =
        (List.range (is.count .vdraw)).map fun n =>
          genResult (genStep^[n / 4] (seededLane seed (Fin.ofNat 4 (3 - n % 4))))) ∧
    ∀ (seed seed' : Word) (k : Fin 4), seededLane seed k ≠ seededScalar seed'

/-- 70_reset_and_hazards.md R140, R143 and R151 (decisions D13, D14): a host that keeps to the spec from reset on gets the
same completions whatever the reset left in the registers, and is never refused. -/
def Obligations.SeededRunsDoNotDependOnReset : Prop :=
  ∀ (r r' : Registers) (inputs : List HostEvent) (sent : List Completion) (k : Nat),
    hostKeepsTo Seeded.nothing inputs = true →
      ∃ t t', run k ⟨r, inputs, sent⟩ = .next t ∧ run k ⟨r', inputs, sent⟩ = .next t' ∧
        t.sent = t'.sent ∧ t.inputs = t'.inputs

/-! ## The assembler -/

/-- 30_encoding.md R60, R62 and R63: the pseudo-commands with a seed expand to the seed command, one command each and the
same encoding; the bounds expand to their constants and are no command. -/
def Obligations.PseudoCommandsExpandToOneCommand : Prop :=
  (∀ (e : Word) (n : Nat), n < 2 ^ 64 →
      assemble e ⟨.sreseed, some (.number n)⟩ = some (.sseed (BitVec.ofNat 64 n)) ∧
      assemble e ⟨.sseed, some (.number n)⟩ = some (.sseed (BitVec.ofNat 64 n)) ∧
      assemble e ⟨.vreseed, some (.number n)⟩ = some (.vseed (BitVec.ofNat 64 n)) ∧
      assemble e ⟨.vseed, some (.number n)⟩ = some (.vseed (BitVec.ofNat 64 n)) ∧
      assemble e ⟨.smctor, some (.number n)⟩ = some (.sminit (BitVec.ofNat 64 n)) ∧
      assemble e ⟨.sminit, some (.number n)⟩ = some (.sminit (BitVec.ofNat 64 n))) ∧
    operandValue .outMin = 0x0000000000000000#64 ∧ operandValue .outMax = 0xFFFFFFFFFFFFFFFF#64 ∧
    readOp ['O', 'U', 'T', '_', 'M', 'I', 'N'] = none ∧ readOp ['O', 'U', 'T', '_', 'M', 'A', 'X'] = none

/-- 30_encoding.md R61 (decision D21): SCTOR and VCTOR are SSEED and VSEED of a word the host obtains, for every such
word. -/
def Obligations.NoArgumentConstructorsTakeAFreeSeed : Prop :=
  ∀ e : Word, assemble e ⟨.sctor, none⟩ = some (.sseed e) ∧ assemble e ⟨.vctor, none⟩ = some (.vseed e)

/-! ## Invariants of seeded streams, one step at a time -/

/-- 70_reset_and_hazards.md R140, R143 and R151 (decisions D13, D14), one event at a time: right after a reset any two
register contents agree on what has been seeded, which is nothing; and from two that agree, an event the host may let
happen completes in both with the same answer and leaves two that agree on what has been seeded by then. -/
def Obligations.StepsKeepSeededAgreement : Prop :=
  (∀ r r' : Registers, Seeded.nothing.agree r r') ∧
    ∀ (b b' : Seeded) (r r' : Registers) (e : HostEvent) (rest : List HostEvent) (sent : List Completion),
      b.agree r r' → b.afterEvent e = some b' →
        ∃ t t', step ⟨r, e :: rest, sent⟩ = .next t ∧ step ⟨r', e :: rest, sent⟩ = .next t' ∧
          b'.agree t.regs t'.regs ∧ t.sent = t'.sent ∧ t.inputs = rest ∧ t'.inputs = rest

/-- 41_scalar_engine.md R92 with R83, R84 and R86 (the spec's derivation; decisions D6, D7), one step at a time: SSEED
puts the scalar engine at draw 0 of its seed, SDRAW returns the word of the position and goes one draw on, SJUMP goes 2^64
draws on (polynomial of R87, entry 7), and every other step but a reset leaves the position. -/
def Obligations.StepsKeepTheScalarPosition : Prop :=
  ∀ (p : Word × Nat) (s t : State), s.regs.atScalar p → s.resetNext = false → step s = .next t →
    (s.inputs = [] ∧ t.regs.atScalar p) ∨
      ∃ cw i rest, s.inputs = .command cw :: rest ∧ decode cw = .command i ∧
        t.regs.atScalar (scalarPosition p i) ∧ (i = .sdraw → t.sent = s.sent ++ [.word (scalarWord p)])

/-- 42_vector_engine.md R108 with R103, R104 and R106 (the spec's derivation; decisions D6 to D9), one step at a time:
VSEED puts the vector engine at draw 0 of its seed, VDRAW returns the word of the position and goes one draw on, and every
other step but a reset leaves the position. -/
def Obligations.StepsKeepTheVectorPosition : Prop :=
  ∀ (p : Word × Nat) (s t : State), s.regs.atVector p → s.resetNext = false → step s = .next t →
    (s.inputs = [] ∧ t.regs.atVector p) ∨
      ∃ cw i rest, s.inputs = .command cw :: rest ∧ decode cw = .command i ∧
        t.regs.atVector (vectorPosition p i) ∧ (i = .vdraw → t.sent = s.sent ++ [.word (vectorWord p)])
end

