-- ==== Sys2Proof/Laws/State.lean ====
section
/-! SUPPORT. One lemma per field per update of the state, so that no proof unfolds a record update. -/

namespace Sys2Proof.Machine

section Respond
variable (s : State) (r : Registers) (c : Completion)

@[simp] theorem State.respond_regs : (s.respond r c).regs = r := rfl
@[simp] theorem State.respond_inputs : (s.respond r c).inputs = s.inputs := rfl
@[simp] theorem State.respond_sent : (s.respond r c).sent = s.sent ++ [c] := rfl
theorem State.respond_eq : s.respond r c = ⟨r, s.inputs, s.sent ++ [c]⟩ := rfl

end Respond

section Present
variable (s : State) (cw : CmdWord) (is : List Instr) (after : Registers)

@[simp] theorem State.present_regs : (s.present cw).regs = s.regs := rfl
@[simp] theorem State.present_inputs : (s.present cw).inputs = .command cw :: s.inputs := rfl
@[simp] theorem State.present_sent : (s.present cw).sent = s.sent := rfl
@[simp] theorem State.presentAll_regs : (s.presentAll is).regs = s.regs := rfl
@[simp] theorem State.presentAll_inputs :
    (s.presentAll is).inputs = is.map (fun i => .command (encode i)) ++ s.inputs := rfl
@[simp] theorem State.presentAll_sent : (s.presentAll is).sent = s.sent := rfl
@[simp] theorem State.afterReset_regs : (State.afterReset after).regs = after := rfl
@[simp] theorem State.afterReset_inputs : (State.afterReset after).inputs = [] := rfl
@[simp] theorem State.afterReset_sent : (State.afterReset after).sent = [] := rfl

end Present

section SmLoad
variable (r : Registers) (seed : Word)

@[simp] theorem Registers.smLoad_smx : (r.smLoad seed).smx = seed := rfl
@[simp] theorem Registers.smLoad_ss0 : (r.smLoad seed).ss0 = r.ss0 := rfl
@[simp] theorem Registers.smLoad_ss1 : (r.smLoad seed).ss1 = r.ss1 := rfl
@[simp] theorem Registers.smLoad_vs0 : (r.smLoad seed).vs0 = r.vs0 := rfl
@[simp] theorem Registers.smLoad_vs1 : (r.smLoad seed).vs1 = r.vs1 := rfl
@[simp] theorem Registers.smLoad_vbuf : (r.smLoad seed).vbuf = r.vbuf := rfl
@[simp] theorem Registers.smLoad_vcur : (r.smLoad seed).vcur = r.vcur := rfl

end SmLoad

section SetScalar
variable (r : Registers) (g : GenState) (k : Fin 4)

@[simp] theorem Registers.setScalar_smx : (r.setScalar g).smx = r.smx := rfl
@[simp] theorem Registers.setScalar_ss0 : (r.setScalar g).ss0 = g.1 := rfl
@[simp] theorem Registers.setScalar_ss1 : (r.setScalar g).ss1 = g.2 := rfl
@[simp] theorem Registers.setScalar_vs0 : (r.setScalar g).vs0 = r.vs0 := rfl
@[simp] theorem Registers.setScalar_vs1 : (r.setScalar g).vs1 = r.vs1 := rfl
@[simp] theorem Registers.setScalar_vbuf : (r.setScalar g).vbuf = r.vbuf := rfl
@[simp] theorem Registers.setScalar_vcur : (r.setScalar g).vcur = r.vcur := rfl
@[simp] theorem Registers.setScalar_scalar : (r.setScalar g).scalar = g := rfl
@[simp] theorem Registers.setScalar_lane : (r.setScalar g).lane k = r.lane k := rfl
@[simp] theorem Registers.setScalar_self : r.setScalar r.scalar = r := rfl

end SetScalar

section RegisterFiles
variable {α : Type}

@[simp] theorem Lanes.get_tabulate (f : Fin 4 → α) (k : Fin 4) : (Lanes.tabulate f).get k = f k := by
  fin_cases k <;> rfl

@[simp] theorem Lanes.get_set_same (v : Lanes α) (k : Fin 4) (a : α) : (v.set k a).get k = a := by
  fin_cases k <;> rfl

theorem Lanes.set_0 (v : Lanes α) (a : α) : v.set 0 a = ⟨a, v.lane1, v.lane2, v.lane3⟩ := rfl
theorem Lanes.set_1 (v : Lanes α) (a : α) : v.set 1 a = ⟨v.lane0, a, v.lane2, v.lane3⟩ := rfl
theorem Lanes.set_2 (v : Lanes α) (a : α) : v.set 2 a = ⟨v.lane0, v.lane1, a, v.lane3⟩ := rfl
theorem Lanes.set_3 (v : Lanes α) (a : α) : v.set 3 a = ⟨v.lane0, v.lane1, v.lane2, a⟩ := rfl

theorem Lanes.get_set_other (v : Lanes α) {j k : Fin 4} (h : j ≠ k) (a : α) : (v.set k a).get j = v.get j := by
  fin_cases j <;> fin_cases k <;> first | rfl | exact absurd rfl h

theorem Lanes.ext_get {v w : Lanes α} (h : ∀ k, v.get k = w.get k) : v = w := by
  obtain ⟨_, _, _, _⟩ := v
  obtain ⟨_, _, _, _⟩ := w
  have h0 := h 0
  have h1 := h 1
  have h2 := h 2
  have h3 := h 3
  simp only [Lanes.get] at h0 h1 h2 h3
  rw [h0, h1, h2, h3]

@[simp] theorem Lanes.tabulate_get (v : Lanes α) : Lanes.tabulate v.get = v := rfl

end RegisterFiles

end Sys2Proof.Machine
end

