-- ==== Sys2Proof/Laws/Ops.lean ====
section
/-! SUPPORT. What each shared operation can do, said once, for proofs to cite instead of unfolding it. -/

namespace Sys2Proof.Machine

/-! ## The seed expander -/

theorem Registers.smNext_eq (r : Registers) :
    r.smNext = (mix64 (r.smx + Config.smGamma), r.smLoad (r.smx + Config.smGamma)) := rfl

/-- The same with the advanced counter as a name: a proof about several draws in a row names each counter value. -/
theorem Registers.smNext_of (r : Registers) {x : Word} (h : x = r.smx + Config.smGamma) :
    r.smNext = (mix64 x, r.smLoad x) := h ▸ r.smNext_eq

section SmNext
variable (r : Registers) (k : Fin 4)

@[simp] theorem Registers.smNext_word : r.smNext.1 = mix64 (r.smx + Config.smGamma) :=
  congrArg (fun p => p.1) r.smNext_eq
theorem Registers.smNext_regs : r.smNext.2 = r.smLoad (r.smx + Config.smGamma) :=
  congrArg (fun p => p.2) r.smNext_eq
@[simp] theorem Registers.smNext_smx : r.smNext.2.smx = r.smx + Config.smGamma :=
  (congrArg Registers.smx r.smNext_regs).trans (r.smLoad_smx _)
@[simp] theorem Registers.smNext_ss0 : r.smNext.2.ss0 = r.ss0 :=
  (congrArg Registers.ss0 r.smNext_regs).trans (r.smLoad_ss0 _)
@[simp] theorem Registers.smNext_ss1 : r.smNext.2.ss1 = r.ss1 :=
  (congrArg Registers.ss1 r.smNext_regs).trans (r.smLoad_ss1 _)
@[simp] theorem Registers.smNext_vs0 : r.smNext.2.vs0 = r.vs0 :=
  (congrArg Registers.vs0 r.smNext_regs).trans (r.smLoad_vs0 _)
@[simp] theorem Registers.smNext_vs1 : r.smNext.2.vs1 = r.vs1 :=
  (congrArg Registers.vs1 r.smNext_regs).trans (r.smLoad_vs1 _)
@[simp] theorem Registers.smNext_vbuf : r.smNext.2.vbuf = r.vbuf :=
  (congrArg Registers.vbuf r.smNext_regs).trans (r.smLoad_vbuf _)
@[simp] theorem Registers.smNext_vcur : r.smNext.2.vcur = r.vcur :=
  (congrArg Registers.vcur r.smNext_regs).trans (r.smLoad_vcur _)
@[simp] theorem Registers.smNext_scalar : r.smNext.2.scalar = r.scalar := by
  simp only [Registers.scalar, Registers.smNext_ss0, Registers.smNext_ss1]
@[simp] theorem Registers.smNext_lane : r.smNext.2.lane k = r.lane k := by
  simp only [Registers.lane, Registers.smNext_vs0, Registers.smNext_vs1]

end SmNext

/-- One pass of the loop that fills `vs0` (42_vector_engine.md R103). -/
theorem Registers.seedLane0_eq {r : Registers} {x w : Word} (k : Fin 4) (h : r.smx + Config.smGamma = x)
    (hw : mix64 x = w) : r.seedLane0 k = { r with smx := x, vs0 := r.vs0.set k w } := by
  unfold Registers.seedLane0
  rw [Registers.smNext_of r h.symm, hw]
  clear h hw
  rfl

/-- One pass of the loop that fills `vs1` (42_vector_engine.md R103). -/
theorem Registers.seedLane1_eq {r : Registers} {x w : Word} (k : Fin 4) (h : r.smx + Config.smGamma = x)
    (hw : mix64 x = w) : r.seedLane1 k = { r with smx := x, vs1 := r.vs1.set k w } := by
  unfold Registers.seedLane1
  rw [Registers.smNext_of r h.symm, hw]
  clear h hw
  rfl

/-- The four draws of `for k in 0..3: vs0[k] <- sm_next()`, counter value by counter value. -/
theorem Registers.seedLane0_all {r : Registers} {x1 x2 x3 x4 w1 w2 w3 w4 : Word} (h1 : r.smx + Config.smGamma = x1)
    (h2 : x1 + Config.smGamma = x2) (h3 : x2 + Config.smGamma = x3) (h4 : x3 + Config.smGamma = x4)
    (g1 : mix64 x1 = w1) (g2 : mix64 x2 = w2) (g3 : mix64 x3 = w3) (g4 : mix64 x4 = w4) :
    laneOrder.foldl Registers.seedLane0 r = { r with smx := x4, vs0 := ⟨w1, w2, w3, w4⟩ } := by
  have e1 : r.seedLane0 0 = { r with smx := x1, vs0 := ⟨w1, r.vs0.lane1, r.vs0.lane2, r.vs0.lane3⟩ } := Registers.seedLane0_eq 0 h1 g1
  have e2 : Registers.seedLane0 { r with smx := x1, vs0 := ⟨w1, r.vs0.lane1, r.vs0.lane2, r.vs0.lane3⟩ } 1 = { r with smx := x2, vs0 := ⟨w1, w2, r.vs0.lane2, r.vs0.lane3⟩ } :=
    Registers.seedLane0_eq 1 h2 g2
  have e3 : Registers.seedLane0 { r with smx := x2, vs0 := ⟨w1, w2, r.vs0.lane2, r.vs0.lane3⟩ } 2 = { r with smx := x3, vs0 := ⟨w1, w2, w3, r.vs0.lane3⟩ } :=
    Registers.seedLane0_eq 2 h3 g3
  have e4 : Registers.seedLane0 { r with smx := x3, vs0 := ⟨w1, w2, w3, r.vs0.lane3⟩ } 3 = { r with smx := x4, vs0 := ⟨w1, w2, w3, w4⟩ } :=
    Registers.seedLane0_eq 3 h4 g4
  simp only [laneOrder, List.foldl_cons, List.foldl_nil, e1, e2, e3, e4]

/-- The four draws of `for k in 0..3: vs1[k] <- sm_next()`, counter value by counter value. -/
theorem Registers.seedLane1_all {r : Registers} {x1 x2 x3 x4 w1 w2 w3 w4 : Word} (h1 : r.smx + Config.smGamma = x1)
    (h2 : x1 + Config.smGamma = x2) (h3 : x2 + Config.smGamma = x3) (h4 : x3 + Config.smGamma = x4)
    (g1 : mix64 x1 = w1) (g2 : mix64 x2 = w2) (g3 : mix64 x3 = w3) (g4 : mix64 x4 = w4) :
    laneOrder.foldl Registers.seedLane1 r = { r with smx := x4, vs1 := ⟨w1, w2, w3, w4⟩ } := by
  have e1 : r.seedLane1 0 = { r with smx := x1, vs1 := ⟨w1, r.vs1.lane1, r.vs1.lane2, r.vs1.lane3⟩ } := Registers.seedLane1_eq 0 h1 g1
  have e2 : Registers.seedLane1 { r with smx := x1, vs1 := ⟨w1, r.vs1.lane1, r.vs1.lane2, r.vs1.lane3⟩ } 1 = { r with smx := x2, vs1 := ⟨w1, w2, r.vs1.lane2, r.vs1.lane3⟩ } :=
    Registers.seedLane1_eq 1 h2 g2
  have e3 : Registers.seedLane1 { r with smx := x2, vs1 := ⟨w1, w2, r.vs1.lane2, r.vs1.lane3⟩ } 2 = { r with smx := x3, vs1 := ⟨w1, w2, w3, r.vs1.lane3⟩ } :=
    Registers.seedLane1_eq 2 h3 g3
  have e4 : Registers.seedLane1 { r with smx := x3, vs1 := ⟨w1, w2, w3, r.vs1.lane3⟩ } 3 = { r with smx := x4, vs1 := ⟨w1, w2, w3, w4⟩ } :=
    Registers.seedLane1_eq 3 h4 g4
  simp only [laneOrder, List.foldl_cons, List.foldl_nil, e1, e2, e3, e4]

/-- A multiple modulo `N` of a number with no factor in common with `N` is 0 only for a multiple of `N`. -/
theorem mul_mod_eq_zero_iff {n N g : Nat} (h : N.Coprime g) : (n % N * g) % N = 0 ↔ N ∣ n := by
  rw [Nat.mod_mul_mod, ← Nat.dvd_iff_mod_eq_zero]
  exact ⟨fun k => h.dvd_of_dvd_mul_right k, fun k => k.mul_right g⟩

/-- `SM_GAMMA` is odd, so only a multiple of 2^64 advances bring the counter back (40_seed_expander.md R72). -/
theorem ofNat_mul_smGamma_eq_zero (n : Nat) : BitVec.ofNat 64 n * Config.smGamma = 0#64 ↔ 2 ^ 64 ∣ n := by
  rw [← mul_mod_eq_zero_iff (N := 2 ^ 64) (g := 0x9E3779B97F4A7C15) (by norm_num)]
  constructor
  · intro h
    have := congrArg BitVec.toNat h
    rw [BitVec.toNat_mul, BitVec.toNat_ofNat] at this
    exact this
  · intro h
    apply BitVec.eq_of_toNat_eq
    rw [BitVec.toNat_mul, BitVec.toNat_ofNat]
    exact h

/-! ## The generator and the jump -/

theorem xstep_eq (a b : Word) : xstep a b = (genResult (a, b), genStep (a, b)) := rfl

theorem genResult_eq (g : GenState) : genResult g = g.1 + g.2 := rfl

/-- The loop's accumulator only collects: it can be taken out in front (41_scalar_engine.md R85). -/
theorem jumpLoop_acc (bits : List Bool) (acc g : GenState) :
    jumpLoop bits acc g = GenState.xor acc (jumpLoop bits zeroState g) := by
  induction bits generalizing acc g with
  | nil => simp [jumpLoop, zeroState, GenState.xor]
  | cons bit bits ih =>
    cases bit with
    | false => simpa [jumpLoop] using ih acc (genStep g)
    | true =>
      simp only [jumpLoop, if_true]
      rw [ih (xorWord acc.1 g.1, xorWord acc.2 g.2), ih (xorWord zeroState.1 g.1, xorWord zeroState.2 g.2)]
      simp [GenState.xor, xorWord, zeroState, BitVec.xor_assoc]

/-- One bit of the scan, with an empty accumulator. -/
theorem jumpLoop_cons (bit : Bool) (bits : List Bool) (g : GenState) :
    jumpLoop (bit :: bits) zeroState g =
      GenState.xor (if bit then g else zeroState) (jumpLoop bits zeroState (genStep g)) := by
  rw [jumpLoop, jumpLoop_acc]
  cases bit <;> simp [GenState.xor, xorWord, zeroState]

@[simp] theorem jumpBits_length (poly0 poly1 : Word) : (jumpBits poly0 poly1).length = 128 := by
  simp [jumpBits]

/-! ## The vector engine -/

section Refill
variable (r : Registers) (k : Fin 4)

@[simp] theorem Registers.refill_lane : r.refill.lane k = genStep (r.lane k) := by
  fin_cases k <;> rfl

@[simp] theorem Registers.refill_vbuf_get : r.refill.vbuf.get k = genResult (r.lane k) := by
  fin_cases k <;> rfl

@[simp] theorem Registers.refill_smx : r.refill.smx = r.smx := rfl
@[simp] theorem Registers.refill_ss0 : r.refill.ss0 = r.ss0 := rfl
@[simp] theorem Registers.refill_ss1 : r.refill.ss1 = r.ss1 := rfl
@[simp] theorem Registers.refill_scalar : r.refill.scalar = r.scalar := rfl
@[simp] theorem Registers.refill_vcur : r.refill.vcur = r.vcur := rfl

end Refill

/-- Two register contents are equal when every register is. -/
theorem Registers.ext_regs {r r' : Registers} (hx : r.smx = r'.smx) (hs : r.scalar = r'.scalar)
    (hl : ∀ k, r.lane k = r'.lane k) (hb : ∀ k, r.vbuf.get k = r'.vbuf.get k) (hc : r.vcur = r'.vcur) : r = r' := by
  obtain ⟨smx, ss0, ss1, vs0, vs1, vbuf, vcur⟩ := r
  obtain ⟨smx', ss0', ss1', vs0', vs1', vbuf', vcur'⟩ := r'
  have h0 : vs0 = vs0' := Lanes.ext_get fun k => congrArg Prod.fst (hl k)
  have h1 : vs1 = vs1' := Lanes.ext_get fun k => congrArg Prod.snd (hl k)
  have h2 : vbuf = vbuf' := Lanes.ext_get hb
  have h3 : ss0 = ss0' := congrArg Prod.fst hs
  have h4 : ss1 = ss1' := congrArg Prod.snd hs
  simp only [Registers.mk.injEq]
  exact ⟨hx, h3, h4, h0, h1, h2, hc⟩

/-- A refill is the only difference a `fillBuffer` can make, and it happens when the cursor is 0. -/
theorem Registers.fillBuffer_empty {r : Registers} (h : r.vcur = 0#2) : r.fillBuffer = (r.refill, 4) := by
  simp [Registers.fillBuffer, h, Config.bufWords]

theorem Registers.fillBuffer_holds {r : Registers} (h : r.vcur ≠ 0#2) : r.fillBuffer = (r, r.vcur.toNat) := by
  simp [Registers.fillBuffer, h]

/-! ## The units' operations

Each is a record of its own: a proof rewrites with these and does not ask Lean to compare whole records by computation
(comparing a wrapped sum with a register by unfolding leads the kernel into the 64-bit literal). -/

theorem Registers.seedScalar_eq (r : Registers) {seed x1 x2 w1 w2 : Word} (h1 : seed + Config.smGamma = x1)
    (h2 : x1 + Config.smGamma = x2) (g1 : mix64 x1 = w1) (g2 : mix64 x2 = w2) :
    r.seedScalar seed = { r with smx := x2, ss0 := w1, ss1 := w2 } := by
  have e1 : (r.smLoad seed).smNext = (w1, r.smLoad x1) := g1 ▸ Registers.smNext_of _ h1.symm
  have e2 : Registers.smNext { r.smLoad x1 with ss0 := w1 } = (w2, Registers.smLoad { r.smLoad x1 with ss0 := w1 } x2) :=
    g2 ▸ Registers.smNext_of _ h2.symm
  unfold Registers.seedScalar
  rw [e1]
  simp only []
  rw [e2]
  clear h1 h2 g1 g2 e1 e2
  rfl

theorem Registers.drawScalar_eq (r : Registers) :
    r.drawScalar = (genResult r.scalar, r.setScalar (genStep r.scalar)) := rfl

theorem Registers.jumpScalar_eq (r : Registers) : r.jumpScalar = r.setScalar (jump r.scalar) := rfl

theorem Registers.seedVector_eq (r : Registers) {seed x1 x2 x3 x4 x5 x6 x7 x8 w1 w2 w3 w4 w5 w6 w7 w8 : Word}
    (h1 : seed + Config.smGamma = x1) (h2 : x1 + Config.smGamma = x2) (h3 : x2 + Config.smGamma = x3)
    (h4 : x3 + Config.smGamma = x4) (h5 : x4 + Config.smGamma = x5) (h6 : x5 + Config.smGamma = x6)
    (h7 : x6 + Config.smGamma = x7) (h8 : x7 + Config.smGamma = x8)
    (g1 : mix64 x1 = w1) (g2 : mix64 x2 = w2) (g3 : mix64 x3 = w3) (g4 : mix64 x4 = w4) (g5 : mix64 x5 = w5)
    (g6 : mix64 x6 = w6) (g7 : mix64 x7 = w7) (g8 : mix64 x8 = w8) :
    r.seedVector seed =
      { r with smx := x8, vs0 := ⟨w1, w2, w3, w4⟩, vs1 := ⟨w5, w6, w7, w8⟩, vcur := 0#2 } := by
  have e1 : laneOrder.foldl Registers.seedLane0 (r.smLoad seed) =
      { r with smx := x4, vs0 := ⟨w1, w2, w3, w4⟩ } := Registers.seedLane0_all h1 h2 h3 h4 g1 g2 g3 g4
  have e2 : laneOrder.foldl Registers.seedLane1 { r with smx := x4, vs0 := ⟨w1, w2, w3, w4⟩ } =
      { r with smx := x8, vs0 := ⟨w1, w2, w3, w4⟩, vs1 := ⟨w5, w6, w7, w8⟩ } :=
    Registers.seedLane1_all h5 h6 h7 h8 g5 g6 g7 g8
  simp only [Registers.seedVector, e1, e2]

theorem Registers.drawVector_empty {r : Registers} (h : r.vcur = 0#2) :
    r.drawVector = (genResult (r.lane 3), { r.refill with vcur := 3#2 }) := by
  unfold Registers.drawVector
  rw [Registers.fillBuffer_empty h]
  simp only [show slotBelow 4 = 3 from rfl, show BitVec.ofNat 2 (4 - 1) = 3#2 from rfl, Registers.refill_vbuf_get]

theorem slotBelow_vcur (c : BitVec 2) : slotBelow c.toNat = Fin.ofNat 4 (c - 1#2).toNat ∨ c = 0#2 := by
  revert c; decide

theorem vcur_down (c : BitVec 2) : BitVec.ofNat 2 (c.toNat - 1) = c - 1#2 ∨ c = 0#2 := by
  revert c; decide

theorem Registers.drawVector_holds {r : Registers} (h : r.vcur ≠ 0#2) :
    r.drawVector = (r.vbuf.get (Fin.ofNat 4 (r.vcur - 1#2).toNat), { r with vcur := r.vcur - 1#2 }) := by
  unfold Registers.drawVector
  rw [Registers.fillBuffer_holds h]
  simp only [(slotBelow_vcur r.vcur).resolve_right h, (vcur_down r.vcur).resolve_right h]

section Fields
variable (r : Registers) (seed : Word) (k : Fin 4)

@[simp] theorem Registers.seedScalar_vs0 : (r.seedScalar seed).vs0 = r.vs0 := by
  rw [r.seedScalar_eq rfl rfl rfl rfl]
@[simp] theorem Registers.seedScalar_vs1 : (r.seedScalar seed).vs1 = r.vs1 := by
  rw [r.seedScalar_eq rfl rfl rfl rfl]
@[simp] theorem Registers.seedScalar_vbuf : (r.seedScalar seed).vbuf = r.vbuf := by
  rw [r.seedScalar_eq rfl rfl rfl rfl]
@[simp] theorem Registers.seedScalar_vcur : (r.seedScalar seed).vcur = r.vcur := by
  rw [r.seedScalar_eq rfl rfl rfl rfl]
@[simp] theorem Registers.seedScalar_lane : (r.seedScalar seed).lane k = r.lane k := by
  simp only [Registers.lane, Registers.seedScalar_vs0, Registers.seedScalar_vs1]

@[simp] theorem Registers.drawScalar_smx : r.drawScalar.2.smx = r.smx := rfl
@[simp] theorem Registers.drawScalar_vbuf : r.drawScalar.2.vbuf = r.vbuf := rfl
@[simp] theorem Registers.drawScalar_vcur : r.drawScalar.2.vcur = r.vcur := rfl
@[simp] theorem Registers.drawScalar_lane : r.drawScalar.2.lane k = r.lane k := rfl

@[simp] theorem Registers.jumpScalar_smx : r.jumpScalar.smx = r.smx := by rw [Registers.jumpScalar_eq]; rfl
@[simp] theorem Registers.jumpScalar_vbuf : r.jumpScalar.vbuf = r.vbuf := by rw [Registers.jumpScalar_eq]; rfl
@[simp] theorem Registers.jumpScalar_vcur : r.jumpScalar.vcur = r.vcur := by rw [Registers.jumpScalar_eq]; rfl
@[simp] theorem Registers.jumpScalar_lane : r.jumpScalar.lane k = r.lane k := by rw [Registers.jumpScalar_eq]; rfl

@[simp] theorem Registers.seedVector_ss0 : (r.seedVector seed).ss0 = r.ss0 := by
  rw [r.seedVector_eq rfl rfl rfl rfl rfl rfl rfl rfl rfl rfl rfl rfl rfl rfl rfl rfl]
@[simp] theorem Registers.seedVector_ss1 : (r.seedVector seed).ss1 = r.ss1 := by
  rw [r.seedVector_eq rfl rfl rfl rfl rfl rfl rfl rfl rfl rfl rfl rfl rfl rfl rfl rfl]
@[simp] theorem Registers.seedVector_vbuf : (r.seedVector seed).vbuf = r.vbuf := by
  rw [r.seedVector_eq rfl rfl rfl rfl rfl rfl rfl rfl rfl rfl rfl rfl rfl rfl rfl rfl]
@[simp] theorem Registers.seedVector_vcur : (r.seedVector seed).vcur = 0#2 := by
  rw [r.seedVector_eq rfl rfl rfl rfl rfl rfl rfl rfl rfl rfl rfl rfl rfl rfl rfl rfl]
@[simp] theorem Registers.seedVector_scalar : (r.seedVector seed).scalar = r.scalar := by
  simp only [Registers.scalar, Registers.seedVector_ss0, Registers.seedVector_ss1]

theorem Registers.drawVector_smx : r.drawVector.2.smx = r.smx := by
  by_cases h : r.vcur = 0#2
  · rw [Registers.drawVector_empty h]; rfl
  · rw [Registers.drawVector_holds h]
theorem Registers.drawVector_scalar : r.drawVector.2.scalar = r.scalar := by
  by_cases h : r.vcur = 0#2
  · rw [Registers.drawVector_empty h]; rfl
  · rw [Registers.drawVector_holds h]; rfl

end Fields

/-! ## A command's end -/

/-- The registers a command leaves, as a function of those it finds. -/
def Registers.afterCommand (r : Registers) : Instr → Registers
  | .sminit seed => r.smLoad seed
  | .smnext => r.smNext.2
  | .sseed seed => r.seedScalar seed
  | .sdraw => r.drawScalar.2
  | .sjump => r.jumpScalar
  | .vseed seed => r.seedVector seed
  | .vdraw => r.drawVector.2

/-- The completion a command gets, as a function of the registers it finds. -/
def Registers.completionOf (r : Registers) : Instr → Completion
  | .sminit _ => .done
  | .smnext => .word r.smNext.1
  | .sseed _ => .done
  | .sdraw => .word r.drawScalar.1
  | .sjump => .done
  | .vseed _ => .done
  | .vdraw => .word r.drawVector.1

section AfterCommand
variable (r : Registers) (seed : Word)

@[simp] theorem Registers.afterCommand_sminit : r.afterCommand (.sminit seed) = r.smLoad seed := rfl
@[simp] theorem Registers.afterCommand_smnext : r.afterCommand .smnext = r.smNext.2 := rfl
@[simp] theorem Registers.afterCommand_sseed : r.afterCommand (.sseed seed) = r.seedScalar seed := rfl
@[simp] theorem Registers.afterCommand_sdraw : r.afterCommand .sdraw = r.drawScalar.2 := rfl
@[simp] theorem Registers.afterCommand_sjump : r.afterCommand .sjump = r.jumpScalar := rfl
@[simp] theorem Registers.afterCommand_vseed : r.afterCommand (.vseed seed) = r.seedVector seed := rfl
@[simp] theorem Registers.afterCommand_vdraw : r.afterCommand .vdraw = r.drawVector.2 := rfl
@[simp] theorem Registers.completionOf_sminit : r.completionOf (.sminit seed) = .done := rfl
@[simp] theorem Registers.completionOf_smnext : r.completionOf .smnext = .word r.smNext.1 := rfl
@[simp] theorem Registers.completionOf_sseed : r.completionOf (.sseed seed) = .done := rfl
@[simp] theorem Registers.completionOf_sdraw : r.completionOf .sdraw = .word r.drawScalar.1 := rfl
@[simp] theorem Registers.completionOf_sjump : r.completionOf .sjump = .done := rfl
@[simp] theorem Registers.completionOf_vseed : r.completionOf (.vseed seed) = .done := rfl
@[simp] theorem Registers.completionOf_vdraw : r.completionOf .vdraw = .word r.drawVector.1 := rfl

end AfterCommand

/-- Whatever the command, it ends in a next state that differs from the start in the registers and in one more
completion, and neither depends on what is at the port. -/
theorem exec_eq_respond (i : Instr) (s : State) :
    exec i s = .next (s.respond (s.regs.afterCommand i) (s.regs.completionOf i)) := by
  cases i <;> rfl

end Sys2Proof.Machine
end

