-- ==== Sys2Proof/Laws/PerInstr.lean ====
section
/-! SUPPORT. Family EncodedRow: the word of a command lies in its row of the opcode map (30_encoding.md R55), and its
`data` field is the seed, or 0 where the command has no operand (R54). -/

namespace Sys2Proof.Laws.EncodedRow

/-- The word agrees with the row's `match` under the `mask`, and its low 64 bits are the operand. -/
def Statement (i : Instr) : Prop :=
  encode i &&& rowMask = rowMatch i ∧ BitVec.setWidth 64 (encode i) = i.operand.getD 0#64

/-- Under a mask of ones above zeros the high part stays and the low part is cleared, at any two widths. -/
theorem append_and_mask {m n : Nat} (op : BitVec m) (data : BitVec n) :
    (op ++ data) &&& (BitVec.allOnes m ++ 0#n) = op ++ 0#n := by
  ext j hj
  by_cases h : j < n <;> simp [BitVec.getElem_append, h]

/-- A word of format C under the mask keeps `unit` and `fn` alone. -/
theorem formatC_and_mask (u : UnitField) (f : FnField) (data : Word) :
    formatC u f data &&& rowMask = formatC u f 0#64 :=
  append_and_mask (u.code ++ f.code) data

/-- The low part of two parts together, at any two widths. -/
theorem setWidth_append_low {m n : Nat} (op : BitVec m) (data : BitVec n) :
    BitVec.setWidth n (op ++ data) = data := by
  ext j hj
  simp [BitVec.getLsbD_append, hj]

/-- The low 64 bits of a word of format C are its `data`. -/
theorem setWidth_formatC (u : UnitField) (f : FnField) (data : Word) :
    BitVec.setWidth 64 (formatC u f data) = data :=
  setWidth_append_low (u.code ++ f.code) data

theorem sminit (seed : Word) : Statement (.sminit seed) :=
  ⟨by rw [encode, formatC_and_mask]; rfl, by rw [encode, setWidth_formatC]; rfl⟩

theorem smnext : Statement .smnext := by unfold Statement; decide

theorem sseed (seed : Word) : Statement (.sseed seed) :=
  ⟨by rw [encode, formatC_and_mask]; rfl, by rw [encode, setWidth_formatC]; rfl⟩

theorem sdraw : Statement .sdraw := by unfold Statement; decide

theorem sjump : Statement .sjump := by unfold Statement; decide

theorem vseed (seed : Word) : Statement (.vseed seed) :=
  ⟨by rw [encode, formatC_and_mask]; rfl, by rw [encode, setWidth_formatC]; rfl⟩

theorem vdraw : Statement .vdraw := by unfold Statement; decide

end Sys2Proof.Laws.EncodedRow
end

