-- ==== Sys2Proof/Laws/Step.lean ====
section
/-! SUPPORT. What one step can do, said once; runs; lists of commands. -/

namespace Sys2Proof.Machine

theorem step_nil {s : State} (h : s.inputs = []) : step s = idle s := by
  unfold step; rw [h]

theorem step_cons {s : State} {e : HostEvent} {rest : List HostEvent} (h : s.inputs = e :: rest) :
    step s = acceptEvent e { s with inputs := rest } := by
  unfold step; rw [h]

theorem acceptCommand_of_decode {cw : CmdWord} {i : Instr} (h : decode cw = .command i) (s : State) :
    acceptCommand cw s = exec i s := by
  unfold acceptCommand; rw [h]

/-- The inversion of the step: a next state comes from idling, from one command, or from a reset. -/
theorem step_cases {s t : State} (h : step s = .next t) :
    (s.inputs = [] ∧ t = s) ∨
      (∃ cw rest i, s.inputs = .command cw :: rest ∧ decode cw = .command i ∧
        t = ⟨s.regs.afterCommand i, rest, s.sent ++ [s.regs.completionOf i]⟩) ∨
      (∃ abandoned after rest, s.inputs = .reset abandoned after :: rest ∧
        (∀ cw, abandoned = some cw → ∃ i, decode cw = .command i) ∧ t = ⟨after, rest, s.sent⟩) := by
  cases hin : s.inputs with
  | nil =>
    rw [step_nil hin] at h
    exact .inl ⟨rfl, (Host.Outcome.next.inj h).symm⟩
  | cons e rest =>
    rw [step_cons hin] at h
    refine .inr ?_
    cases e with
    | command cw =>
      simp only [acceptEvent, acceptCommand] at h
      cases hd : decode cw with
      | command i =>
        rw [hd] at h
        exact .inl ⟨cw, rest, i, rfl, hd, (Host.Outcome.next.inj ((exec_eq_respond i _).symm.trans h)).symm⟩
      | invalid op => rw [hd] at h; cases h
    | reset abandoned after =>
      refine .inr ⟨abandoned, after, rest, rfl, ?_⟩
      cases abandoned with
      | none => exact ⟨by simp, (Host.Outcome.next.inj h).symm⟩
      | some cw =>
        simp only [acceptEvent, acceptReset, Option.map_some] at h
        cases hd : decode cw with
        | command i =>
          rw [hd] at h
          refine ⟨fun cw' he => ⟨i, ?_⟩, (Host.Outcome.next.inj h).symm⟩
          rw [← Option.some.inj he]; exact hd
        | invalid op => rw [hd] at h; cases h
    | overlap first second => cases h

/-! ## Runs and lists of commands -/

@[simp] theorem run_zero (s : State) : run 0 s = .next s := rfl

theorem run_succ (k : Nat) (s : State) :
    run (k + 1) s = match step s with
      | .next t => run k t
      | .fault f => .fault f
      | .refused r => .refused r := rfl

theorem run_succ_of_next {k : Nat} {s t : State} (h : step s = .next t) : run (k + 1) s = run k t := by
  rw [run_succ, h]

theorem core_run_succ_of_next (M : Host.Core) (k : Nat) {s t : M.State} (h : M.step s = .next t) :
    M.run (k + 1) s = M.run k t := by
  simp only [Host.Core.run, h]

theorem core_run_succ_of_refused (M : Host.Core) (k : Nat) {s : M.State} {r : M.Refusal} (h : M.step s = .refused r) :
    M.run (k + 1) s = .refused r := by
  simp only [Host.Core.run, h]

/-- `run` is the run of the host's interface. -/
theorem run_eq_core_run (k : Nat) (s : State) : run k s = Host.Core.run Sys2Proof.core k s := by
  induction k generalizing s with
  | zero => rfl
  | succ k ih =>
    cases h : step s with
    | next t => rw [core_run_succ_of_next Sys2Proof.core k h, run_succ_of_next h, ih t]
    | fault f => cases f
    | refused r => rw [core_run_succ_of_refused Sys2Proof.core k h, run_succ, h]; rfl

@[simp] theorem execAll_nil (s : State) : execAll [] s = .next s := rfl

theorem execAll_cons (i : Instr) (is : List Instr) (s : State) :
    execAll (i :: is) s = execAll is (s.respond (s.regs.afterCommand i) (s.regs.completionOf i)) := by
  simp only [execAll, exec_eq_respond]

@[simp] theorem transcript_nil (s : State) : transcript [] s = [] := rfl

theorem transcript_cons (i : Instr) (is : List Instr) (s : State) :
    transcript (i :: is) s = (i, s.regs.completionOf i) ::
      transcript is (s.respond (s.regs.afterCommand i) (s.regs.completionOf i)) := by
  simp only [transcript, exec_eq_respond]
  simp

/-! ## Events a host may let happen -/

theorem Seeded.afterEvent_command {cw : CmdWord} {i : Instr} (h : decode cw = .command i) (b : Seeded) :
    b.afterEvent (.command cw) = if b.allows i then some (b.after i) else none := by
  simp only [Seeded.afterEvent, h]

@[simp] theorem hostKeepsTo_nil (b : Seeded) : hostKeepsTo b [] = true := by simp only [hostKeepsTo]

theorem hostKeepsTo_cons (b : Seeded) (e : HostEvent) (es : List HostEvent) :
    hostKeepsTo b (e :: es) = true ↔ ∃ b', b.afterEvent e = some b' ∧ hostKeepsTo b' es = true := by
  rw [hostKeepsTo]
  cases b.afterEvent e <;> simp

/-- The inversion of an allowed event: a command that the boot rule allows, or a reset of no undefined command. -/
theorem Seeded.afterEvent_cases {b b' : Seeded} {e : HostEvent} (h : b.afterEvent e = some b') :
    (∃ cw i, e = .command cw ∧ decode cw = .command i ∧ b.allows i = true ∧ b' = b.after i) ∨
      ∃ abandoned after, e = .reset abandoned after ∧ e.defined = true ∧ b' = Seeded.nothing := by
  cases e with
  | command cw =>
    cases hd : decode cw with
    | command i =>
      rw [Seeded.afterEvent_command hd] at h
      split at h
      · exact .inl ⟨cw, i, rfl, hd, ‹_›, (Option.some.inj h).symm⟩
      · cases h
    | invalid op => simp only [Seeded.afterEvent, hd] at h; cases h
  | reset abandoned after =>
    simp only [Seeded.afterEvent] at h
    split at h
    · exact .inr ⟨abandoned, after, rfl, ‹_›, (Option.some.inj h).symm⟩
    · cases h
  | overlap first second => cases h

/-- A defined reset leaves what it carries, whatever the registers were. -/
theorem step_reset {abandoned : Option CmdWord} {after : Registers}
    (h : (HostEvent.reset abandoned after).defined = true) (r : Registers) (rest : List HostEvent)
    (sent : List Completion) : step ⟨r, .reset abandoned after :: rest, sent⟩ = .next ⟨after, rest, sent⟩ := by
  rw [step_cons rfl]
  simp only [acceptEvent, acceptReset]
  simp only [HostEvent.defined] at h
  split <;> simp_all

/-- A defined command at the port leaves and answers what `afterCommand` and `completionOf` say. -/
theorem step_command {cw : CmdWord} {i : Instr} (h : decode cw = .command i) (r : Registers) (rest : List HostEvent)
    (sent : List Completion) :
    step ⟨r, .command cw :: rest, sent⟩ = .next ⟨r.afterCommand i, rest, sent ++ [r.completionOf i]⟩ := by
  rw [step_cons rfl]
  exact (acceptCommand_of_decode h _).trans (exec_eq_respond i _)

end Sys2Proof.Machine
end

