-- ==== Sys2Proof/Tests/Slice0.lean ====
section
/-! SUPPORT. Tests of the model against 95_test_vectors.md (its sections are named beside each), the smoke tests of
WellFormed, and for every statement with hypotheses a witness that meets them. -/

open Sys2Proof Sys2Proof.Machine

namespace Sys2Proof.Tests.Slice0

/-- The next state of an outcome, if it is one. -/
def next? : Outcome → Option State
  | .next t => some t
  | .fault _ => none
  | .refused _ => none

/-- The refusal of an outcome, if it is one. -/
def refusal? : Outcome → Option Refusal
  | .next _ => none
  | .fault _ => none
  | .refused r => some r

/-- A state with these registers, nothing presented and nothing delivered. -/
abbrev idleWith (r : Registers) : State := State.afterReset r

/-- Q0 with the scalar engine's words replaced. -/
abbrev scalarAt (a b : Word) : State := idleWith { Registers.q0 with ss0 := a, ss1 := b }

/-- The registers VSEED 123456 leaves, from the table of section 6.1, on the rest of Q0. -/
abbrev seeded123456 : Registers := { Registers.q0 with
  smx := 0xF1BBCDCBFA55C2E8#64
  vs0 := ⟨0x39E65B817D6592E9#64, 0x41F614E28788BC09#64, 0x96EC4ED49636C4E5#64, 0xB9212F343B305E3A#64⟩
  vs1 := ⟨0x6A238B09E84E5197#64, 0xC81DC76F64C9BB93#64, 0x6066BB105043EA14#64, 0xE603D868BC30E3E0#64⟩
  vcur := 0#2 }

/-! ## WellFormed: for each check a term it refuses -/

theorem test_wf_refuses_operand_of_65_bits : AsmLine.wf ⟨.sseed, some (.number (2 ^ 64))⟩ = false := by decide
theorem test_wf_takes_largest_operand : AsmLine.wf ⟨.sseed, some (.number (2 ^ 64 - 1))⟩ = true := by decide
theorem test_wf_refuses_missing_operand : AsmLine.wf ⟨.vseed, none⟩ = false := by decide
theorem test_wf_refuses_operand_of_vdraw : AsmLine.wf ⟨.vdraw, some (.number 0)⟩ = false := by decide
theorem test_wf_refuses_operand_of_sctor : AsmLine.wf ⟨.sctor, some .outMin⟩ = false := by decide
theorem test_wf_every_seed : ∀ seed : Word, (Instr.sseed seed).wf = true := fun _ => rfl

/-! ## Decoding: each row of R55, written out from unit, fn and data (R51) -/

theorem test_decode_sminit :
    decode (0b00#2 ++ 0b00#2 ++ 0x000000000001E240#64) = .command (.sminit 123456#64) := by decide
theorem test_decode_smnext : decode (0b00#2 ++ 0b01#2 ++ 0x0000000000000000#64) = .command .smnext := by decide
theorem test_decode_sseed :
    decode (0b01#2 ++ 0b00#2 ++ 0x8000000000000001#64) = .command (.sseed 0x8000000000000001#64) := by decide
theorem test_decode_sdraw : decode (0b01#2 ++ 0b01#2 ++ 0x00000000DEADBEEF#64) = .command .sdraw := by decide
theorem test_decode_sjump : decode (0b01#2 ++ 0b10#2 ++ 0xFFFFFFFFFFFFFFFF#64) = .command .sjump := by decide
theorem test_decode_vseed :
    decode (0b10#2 ++ 0b00#2 ++ 0x000000000001E240#64) = .command (.vseed 0x1E240#64) := by decide
theorem test_decode_vdraw : decode (0b10#2 ++ 0b01#2 ++ 0x0000000000000000#64) = .command .vdraw := by decide
theorem test_decode_reserved_unit : decode 0xC0000000000000001#68 = .invalid 0xC#4 := by decide
theorem test_decode_reserved_fn : decode 0x30000000000000005#68 = .invalid 0x3#4 := by decide
theorem test_encode_vseed : encode (.vseed 0x1E240#64) = 0x8000000000001E240#68 := by decide
theorem test_encode_sjump : encode .sjump = 0x60000000000000000#68 := by decide
theorem test_table_word : decodeTableWord 72 0x4000000000001E240 = some (.sseed 123456#64) := by decide
theorem test_table_word_reserved : decodeTableWord 72 0xB0000000000000000 = none := by decide

/-- The first step after reset runs the word placed at the port. -/
theorem test_fetch_word_runs :
    (next? (step (State.reset.withFetchWord 72 0x50000000000000000))).isSome = true ∧
      next? (step (State.reset.withFetchWord 72 0x50000000000000000)) = next? (exec .sdraw State.reset) := by decide

/-! ## Word operators and helper functions (sections 2.1, 3.1, 3.2) -/

theorem test_rotl_wraps : rotl 0x8000000000000001#64 24 = 0x0000000001800000#64 := by decide
theorem test_mul_truncates : mulWord 0x9E3779BB07979AF0#64 Config.smM1 = 0x6F68261B57E7A770#64 := by decide
theorem test_shr_zero_fill : shrWord 0xFFFFFFFFFFFFFFFF#64 63 = 1#64 := by decide
theorem test_mix64 : mix64 0x9E3779B97F4A7C15#64 = 0xE220A8397B1DCDAF#64 := by decide
theorem test_xstep :
    xstep 0x0123456789ABCDEF#64 0xFEDCBA9876543210#64 =
      (0xFFFFFFFFFFFFFFFF#64, 0x6789ABCDEF01DCBA#64, 0xFFFFFFFFFFFFFFFF#64) := by decide

/-! ## Commands (sections 2.2, 4.1, 5, 6.1; programs P2, P7) -/

theorem test_sminit_loads :
    (next? (exec (.sminit 123456#64) State.reset)).map (·.regs) =
      some { Registers.q0 with smx := 0x1E240#64 } := by decide
theorem test_smnext_wraps :
    (next? (exec .smnext (idleWith { Registers.q0 with smx := 0xFFFFFFFFFFFFFFFF#64 }))).map
      (fun t => (t.regs.smx, t.sent)) = some (0x9E3779B97F4A7C14#64, [.word 0xE4D971771B652C20#64]) := by decide
theorem test_smnext_zero :
    (next? (exec .smnext (idleWith { Registers.q0 with smx := 0x61C8864680B583EB#64 }))).map (·.sent) =
      some [.word 0#64] := by decide
theorem test_sseed :
    (next? (exec (.sseed 123456#64) State.reset)).map (·.regs) =
      some { Registers.q0 with
        smx := 0x3C6EF372FE96DA6A#64, ss0 := 0x39E65B817D6592E9#64, ss1 := 0x41F614E28788BC09#64 } := by decide
theorem test_sseed_first_word_zero :
    (next? (exec (.sseed 0x61C8864680B583EB#64) State.reset)).map (fun t => (t.regs.ss0, t.regs.ss1)) =
      some (0#64, 0xE220A8397B1DCDAF#64) := by decide
theorem test_sdraw :
    (next? (exec .sdraw (scalarAt 0x39E65B817D6592E9#64 0x41F614E28788BC09#64))).map
      (fun t => (t.regs.ss0, t.regs.ss1, t.sent)) =
      some (0xB60ED01C3D34C8BB#64, 0x5DA5DC0F0209EC7F#64, [.word 0x7BDC706404EE4EF2#64]) := by decide
theorem test_sdraw_unseeded :
    (next? (exec .sdraw State.reset)).map (fun t => (t.regs.ss0, t.regs.ss1, t.sent)) =
      some (0xBBBBBBBBBBBBCCCC#64, 0xEEEEEEEEEEEEEEEE#64, [.word 0x8888888888888887#64]) := by decide
set_option maxRecDepth 4000 in
theorem test_sjump_basis :
    (next? (exec .sjump (scalarAt 1#64 0#64))).map (fun t => (t.regs.ss0, t.regs.ss1, t.sent)) =
      some (0x578C3CAE7083594B#64, 0xC8A00240E9ED425E#64, [.done]) := by decide
set_option maxRecDepth 4000 in
theorem test_sjump_seeded :
    (next? (exec .sjump (scalarAt 0x39E65B817D6592E9#64 0x41F614E28788BC09#64))).map
      (fun t => (t.regs.ss0, t.regs.ss1)) = some (0xD29BBCD845CA624E#64, 0xAB0884464478AC08#64) := by decide
theorem test_vseed :
    (next? (exec (.vseed 123456#64) State.reset)).map (·.regs) = some seeded123456 := by decide
theorem test_vdraw_refills :
    (next? (exec .vdraw (idleWith seeded123456))).map (fun t => (t.regs.vbuf, t.regs.vcur, t.sent)) =
      some (⟨0xA409E68B65B3E480#64, 0x0A13DC51EC52779C#64, 0xF75309E4E67AAEF9#64, 0x9F25079CF761421A#64⟩, 3#2,
        [.word 0x9F25079CF761421A#64]) := by decide
theorem test_vdraw_holds_two :
    (next? (exec .vdraw State.reset)).map (fun t => (t.regs, t.sent)) =
      some ({ Registers.q0 with vcur := 1#2 }, [.word 0xF0F0F0F0F0F0F0F1#64]) := by decide

/-! ## The port -/

theorem test_reserved_code_refused :
    refusal? (step (State.reset.present 0xA0000000000000000#68)) = some (.reservedCode 0xA#4) := by decide
theorem test_overlap_refused :
    refusal? (step { State.reset with inputs := [.overlap 0#68 0#68] }) = some .overlappingCommands := by decide
theorem test_reset_abandons_jump :
    next? (step { State.reset with inputs := [.reset (some 0x60000000000000000#68) seeded123456] }) =
      some (idleWith seeded123456) := by decide
theorem test_idle : next? (step State.reset) = some State.reset := by decide

/-! ## The assembler (R59 to R63) -/

theorem test_line_hexadecimal :
    readLine ['S', 'S', 'E', 'E', 'D', ' ', '0', 'x', '1', 'E', '2', '4', '0', ' ', ';', 'a'] =
      some (some ⟨.sseed, some (.number 123456)⟩) := by decide
theorem test_line_decimal :
    readLine ['V', 'R', 'E', 'S', 'E', 'E', 'D', ' ', '1', '2', '3', '4', '5', '6'] =
      some (some ⟨.vreseed, some (.number 123456)⟩) := by decide
theorem test_digits_of_every_run : ['0', '9', 'A', 'F', 'a', 'f', 'G', ':'].map digitValue =
    [some 0, some 9, some 10, some 15, some 10, some 15, none, none] := by decide
theorem test_line_small_letters_refused : readLine ['s', 'd', 'r', 'a', 'w'] = none := by decide
/-- Entry 9: the model's choice, no rule of the spec. -/
theorem test_line_with_result_refused :
    readLine ['S', 'D', 'R', 'A', 'W', ' ', '-', '>', ' ', '0', 'x', '7'] = none := by decide
theorem test_line_comment_only : readLine [';', 'x'] = some none := by decide

/-! ## Witnesses: a state and operands that meet a statement's hypotheses together -/

theorem witness_DecoderAndEncoderAreInverse :
    (Instr.vseed 0xFFFFFFFFFFFFFFFF#64).wf = true ∧ decode 0x500000000DEADBEEF#68 = .command .sdraw ∧
      decode 0x0FFFFFFFFFFFFFFFF#68 = .command (.sminit 0xFFFFFFFFFFFFFFFF#64) := by decide
theorem witness_OpcodeMapSelectsByMaskAndMatch :
    0x1FFFFFFFFFFFFFFFF#68 &&& 0xF0000000000000000#68 = rowMatch .smnext ∧ Instr.smnext.operand = none ∧
      0x4FFFFFFFFFFFFFFFF#68 &&& 0xF0000000000000000#68 = rowMatch (.sseed 0xFFFFFFFFFFFFFFFF#64) ∧
      (Instr.sseed 0xFFFFFFFFFFFFFFFF#64).operand = some (BitVec.setWidth 64 0x4FFFFFFFFFFFFFFFF#68) := by decide
theorem witness_DataFieldIsTheSeedOrIgnored_without_operand :
    opOf 0x90000000000000000#68 = opOf 0x9FFFFFFFFFFFFFFFF#68 ∧ decode 0x90000000000000000#68 = .command .vdraw ∧
      Instr.vdraw.operand = none := by decide
theorem witness_DataFieldIsTheSeedOrIgnored_with_operand :
    opOf 0x80000000000000000#68 = opOf 0x8FFFFFFFFFFFFFFFF#68 ∧
      decode 0x80000000000000000#68 = .command (.vseed 0#64) ∧ (Instr.vseed 0#64).operand = some 0#64 := by decide
theorem witness_StepRunsThePresentedCommand :
    (State.reset.present 0x60000000000000000#68).inputs = .command 0x60000000000000000#68 :: [] ∧
      decode 0x60000000000000000#68 = .command .sjump := by decide
theorem witness_IdleStepChangesNothing : State.reset.inputs = [] := rfl
theorem witness_ReservedCodesAreRefused :
    opOf 0x2FFFFFFFFFFFFFFFF#68 = 0x2#4 ∧ opOf 0xF0000000000000000#68 = 0xF#4 ∧
      (State.reset.present 0xF0000000000000000#68).inputs = .command 0xF0000000000000000#68 :: [] := by decide
theorem witness_RefusedOnlyForUndefinedEvents :
    (HostEvent.overlap 0#68 0#68).defined = false ∧ (HostEvent.command 0x70000000000000000#68).defined = false ∧
      (HostEvent.reset (some 0x70000000000000000#68) Registers.q0).defined = false ∧
      (HostEvent.reset (some 0x60000000000000000#68) Registers.q0).defined = true := by decide
theorem witness_ResetReplacesEveryRegister :
    ({ State.reset with inputs := [.reset none seeded123456] } : State).inputs = .reset none seeded123456 :: [] ∧
      decode 0x90000000000000000#68 = .command .vdraw ∧
      ({ State.reset with inputs := [.reset (some 0x90000000000000000#68) seeded123456] } : State).inputs =
        .reset (some 0x90000000000000000#68) seeded123456 :: [] := by decide
theorem witness_WordOperatorsAreModular : 0 < 63 ∧ 63 < 64 ∧ (0 : Nat) < 1 ∧ 1 < 64 ∧ Config.smM1.toNat % 2 = 1 := by
  decide
theorem witness_RotateLeftMovesEveryBit : 0 < 63 ∧ 63 < 64 ∧ 0 < 1 ∧ 1 < 64 ∧ (0 : Nat) < 64 := by decide
theorem witness_Mix64IsABijectionFixingZero :
    0 < Config.smSh1 ∧ Config.smSh1 < 64 ∧ 0 < Config.smSh2 ∧ Config.smSh2 < 64 ∧ 0 < Config.smSh3 ∧
      Config.smSh3 < 64 ∧ (0 : Nat) < 2 ^ 64 - 1 ∧ 2 ^ 64 - 1 - 0 < 2 ^ 64 := by decide
theorem witness_SjumpIsLinear :
    (scalarAt 3#64 5#64).regs.scalar = GenState.xor (scalarAt 1#64 4#64).regs.scalar (scalarAt 2#64 1#64).regs.scalar ∧
      (∃ t, exec .sjump (scalarAt 1#64 4#64) = .next t) ∧ (∃ t, exec .sjump (scalarAt 2#64 1#64) = .next t) ∧
      ∃ t, exec .sjump (scalarAt 3#64 5#64) = .next t :=
  ⟨by decide, ⟨_, exec_eq_respond _ _⟩, ⟨_, exec_eq_respond _ _⟩, ⟨_, exec_eq_respond _ _⟩⟩
theorem witness_ZeroStateIsAFixedPoint : (scalarAt 0#64 0#64).regs.scalar = zeroState := rfl
theorem witness_LiveStatesFormOneCycle :
    ((1#64, 0#64) : GenState) ≠ zeroState ∧ ((0#64, 1#64) : GenState) ≠ zeroState := by decide
theorem witness_JumpedStreamsShareNoPosition :
    ((0#64, 1#64) : GenState) ≠ zeroState ∧ 0 < 2 ^ 64 - 2 ∧ 2 ^ 64 - 2 ≤ 2 ^ 64 - 2 ∧ 2 ^ 64 - 1 < 2 ^ 64 := by decide
theorem witness_LanesAreIndependent :
    seeded123456.vcur = 0#2 ∧
      ({ seeded123456 with vs0 := { seeded123456.vs0 with lane0 := 0#64 } } : Registers).vcur = 0#2 ∧
      seeded123456.lane 3 = ({ seeded123456 with vs0 := { seeded123456.vs0 with lane0 := 0#64 } } : Registers).lane 3 := by
  decide
theorem witness_VdrawRefillsOrReturnsTheNextSlot :
    (idleWith { Registers.q0 with vcur := 0#2 }).regs.vcur = 0#2 ∧
      (idleWith { Registers.q0 with vcur := 3#2 }).regs.vcur = 3#2 ∧ State.reset.regs.vcur = 2#2 ∧
      (idleWith { Registers.q0 with vcur := 1#2 }).regs.vcur = 1#2 := by decide
theorem witness_CursorStateMachine : Instr.sjump ≠ .vdraw ∧ ∀ seed, Instr.sjump ≠ .vseed seed :=
  ⟨by decide, fun _ h => nomatch h⟩
theorem witness_FourDrawsDrainLanesThreeToZero : (idleWith seeded123456).regs.vcur = 0#2 := rfl
theorem witness_ZeroLaneStaysZero :
    (idleWith { seeded123456 with
      vs0 := { seeded123456.vs0 with lane2 := 0#64 }, vs1 := { seeded123456.vs1 with lane2 := 0#64 } }).regs.vcur = 0#2 ∧
    (idleWith { seeded123456 with
      vs0 := { seeded123456.vs0 with lane2 := 0#64 }, vs1 := { seeded123456.vs1 with lane2 := 0#64 } }).regs.lane 2 =
        zeroState := by decide
theorem witness_CommandsWriteOnlyTheirRegisters :
    (∃ t, exec .smnext State.reset = .next t) ∧ (∃ t, exec (.sminit 0#64) State.reset = .next t) ∧
      (∃ t, exec (.sseed 0#64) State.reset = .next t) ∧ (∃ t, exec .sdraw State.reset = .next t) ∧
      (∃ t, exec .sjump State.reset = .next t) ∧ (∃ t, exec (.vseed 0#64) State.reset = .next t) ∧
      (∃ t, exec .vdraw State.reset = .next t) ∧ State.reset.regs.vcur ≠ 0#2 :=
  ⟨⟨_, exec_eq_respond _ _⟩, ⟨_, exec_eq_respond _ _⟩, ⟨_, exec_eq_respond _ _⟩, ⟨_, exec_eq_respond _ _⟩,
    ⟨_, exec_eq_respond _ _⟩, ⟨_, exec_eq_respond _ _⟩, ⟨_, exec_eq_respond _ _⟩, by decide⟩
theorem witness_SeedCommandsAreIdempotent :
    Instr.vseed 7#64 ∈ [Instr.sminit 7#64, .sseed 7#64, .vseed 7#64] := by decide
theorem witness_StepsKeepGeneratorsLive :
    (State.reset.present (encode .sdraw)).resetNext = false ∧
      (∃ t, step (State.reset.present (encode .sdraw)) = .next t) ∧
      (State.reset.present (encode .sdraw)).regs.scalarLive ∧ (State.reset.present (encode .sdraw)).regs.lanesLive :=
  ⟨rfl, ⟨_, rfl⟩, by decide, by decide⟩

/-- The registers after a refill of VSEED 123456, with one word returned (section 6.1). -/
abbrev refilled123456 : Registers := { seeded123456.refill with vcur := 3#2 }

theorem witness_StepsKeepTheBufferValid :
    ((idleWith refilled123456).present (encode .vdraw)).resetNext = false ∧
      ((idleWith refilled123456).present (encode .vdraw)).regs.bufferValid ∧
      (∃ t, step ((idleWith refilled123456).present (encode .vdraw)) = .next t) ∧
      ((idleWith refilled123456).present (encode .vdraw)).regs.vcur = 3#2 :=
  ⟨rfl, fun k _ => ⟨seeded123456.lane k, (seeded123456.refill_lane k).symm, (seeded123456.refill_vbuf_get k).symm⟩,
    ⟨_, rfl⟩, rfl⟩

theorem witness_ScalarStreamDependsOnTheSeedOnly :
    ∀ i ∈ [Instr.sdraw, .vseed 1#64, .smnext, .sdraw], i ≠ .sjump ∧ ∀ x, i ≠ .sseed x := by simp
theorem witness_VectorStreamInterleavesFourScalarStreams :
    ∀ i ∈ [Instr.vdraw, .sseed 1#64, .sjump, .vdraw], ∀ x, i ≠ .vseed x := by simp
theorem witness_SeededRunsDoNotDependOnReset :
    hostKeepsTo Seeded.nothing [.command (encode (.vseed 1#64)), .command (encode .vdraw), .command (encode .smnext),
      .reset (some (encode .sjump)) Registers.q0, .command (encode (.sseed 2#64)), .command (encode .sjump),
      .command (encode .sdraw)] = true := by decide
theorem witness_StepsKeepSeededAgreement :
    Seeded.nothing.agree seeded123456 Registers.q0 ∧
      Seeded.nothing.afterEvent (.command (encode (.vseed 1#64))) = some ⟨true, false, true⟩ ∧
      Seeded.nothing.afterEvent (.reset (some (encode .sjump)) Registers.q0) = some Seeded.nothing := by
  refine ⟨⟨fun h => ?_, fun h => ?_, fun h => ?_⟩, by decide, by decide⟩ <;> exact nomatch h
theorem witness_StepsKeepTheScalarPosition :
    ((scalarAt 0x39E65B817D6592E9#64 0x41F614E28788BC09#64).present (encode .sdraw)).regs.atScalar (123456#64, 0) ∧
      ((scalarAt 0x39E65B817D6592E9#64 0x41F614E28788BC09#64).present (encode .sdraw)).resetNext = false ∧
      ∃ t, step ((scalarAt 0x39E65B817D6592E9#64 0x41F614E28788BC09#64).present (encode .sdraw)) = .next t :=
  ⟨by decide, rfl, ⟨_, rfl⟩⟩
theorem witness_StepsKeepTheVectorPosition :
    ((idleWith seeded123456).present (encode .vdraw)).regs.atVector (123456#64, 0) ∧
      ((idleWith refilled123456).present (encode .vdraw)).regs.atVector (123456#64, 1) ∧
      ((idleWith refilled123456).present (encode .vdraw)).resetNext = false ∧
      ∃ t, step ((idleWith refilled123456).present (encode .vdraw)) = .next t :=
  ⟨by decide, by decide, rfl, ⟨_, rfl⟩⟩
theorem witness_PseudoCommandsExpandToOneCommand : 2 ^ 64 - 1 < 2 ^ 64 := by decide

end Sys2Proof.Tests.Slice0
end

section
/-! PROOFS. What the assembler makes of a line (30_encoding.md R59 to R63). -/

namespace Sys2Proof.Machine

/-- A line with a numeric operand is well formed where the operation takes an operand and the number fits a word (R59). -/
theorem AsmLine.wf_number {op : AsmOp} {n : Nat} :
    AsmLine.wf ⟨op, some (.number n)⟩ = true ↔ op.takesOperand = true ∧ n < 2 ^ 64 := by
  simp only [AsmLine.wf, AsmOperand.wf, Bool.and_eq_true, decide_eq_true_eq]

/-- A well-formed line is the command of its operation, with the operand's word as the seed (R59 to R62). -/
theorem assemble_of_wf {l : AsmLine} (h : l.wf = true) (e : Word) :
    assemble e l = some (assembleOp l.op ((l.operand.map operandValue).getD e)) :=
  if_pos h

/-- An operation that takes an operand assembles, with a number below 2^64, to its command with that seed, whatever
word the host holds (R59, R60, R62). -/
theorem assemble_number {op : AsmOp} {n : Nat} (hop : op.takesOperand = true) (hn : n < 2 ^ 64) (e : Word) :
    assemble e ⟨op, some (.number n)⟩ = some (assembleOp op (BitVec.ofNat 64 n)) :=
  assemble_of_wf (AsmLine.wf_number.mpr ⟨hop, hn⟩) e

/-- Settles O49: each of the six lines is well formed, so it assembles to the command of its operation, which for a
pseudo-command is the one of the seed command; the bounds and their names are read off the tables. -/
theorem pseudoCommandsExpandToOneCommand : Obligations.PseudoCommandsExpandToOneCommand := by
  unfold Obligations.PseudoCommandsExpandToOneCommand
  refine ⟨fun e n hn => ?_, rfl, rfl, rfl, rfl⟩
  have seeded (op : AsmOp) (hop : op.takesOperand = true) := assemble_number hop hn e
  exact ⟨seeded .sreseed rfl, seeded .sseed rfl, seeded .vreseed rfl, seeded .vseed rfl, seeded .smctor rfl,
    seeded .sminit rfl⟩

end Sys2Proof.Machine
end

section
/-! PROOFS. The mixer of the seed expander and a row of draws from it (40_seed_expander.md R71 to R75). -/

namespace Sys2Proof.Machine

/-! ## The mixer is injective and fixes 0 -/

/-- Exclusive or goes through the xor-shift, each bit of it being one (00_scope.md R15). -/
theorem xorShiftRight_xor (k : Nat) (a b : Word) :
    xorShiftRight k (a ^^^ b) = xorShiftRight k a ^^^ xorShiftRight k b := by
  simp only [xorShiftRight, xorWord, shrWord, BitVec.ushiftRight_xor_distrib]
  ac_rfl

@[simp] theorem xorShiftRight_zero (k : Nat) : xorShiftRight k 0#64 = 0#64 := by
  simp [xorShiftRight, xorWord, shrWord]

/-- A word that equals its own right shift is 0, since a shift makes any other word smaller. -/
theorem xorShiftRight_eq_zero {k : Nat} (hk : 0 < k) {z : Word} (h : xorShiftRight k z = 0#64) : z = 0#64 := by
  have hz : z.toNat = z.toNat / 2 ^ k := by
    rw [← Nat.shiftRight_eq_div_pow, ← BitVec.toNat_ushiftRight]
    exact congrArg BitVec.toNat (BitVec.xor_eq_zero_iff.mp h)
  refine BitVec.eq_of_toNat_eq (Nat.eq_zero_of_not_pos fun hpos => ?_)
  exact absurd hz (Nat.div_lt_self hpos (Nat.one_lt_two_pow hk.ne')).ne'

theorem xorShiftRight_injective {k : Nat} (hk : 0 < k) : Function.Injective (xorShiftRight k) := by
  intro a b h
  refine BitVec.xor_eq_zero_iff.mp (xorShiftRight_eq_zero hk ?_)
  rw [xorShiftRight_xor, h, BitVec.xor_self]

/-- An odd factor can be cancelled modulo 2^64 (00_scope.md R12). -/
theorem mulWord_injective {c : Word} (hc : Odd c.toNat) : Function.Injective (fun a => mulWord a c) := by
  intro a b h
  have hmod : a.toNat * c.toNat ≡ b.toNat * c.toNat [MOD 2 ^ 64] := by
    simpa only [mulWord, BitVec.toNat_mul, Nat.ModEq] using congrArg BitVec.toNat h
  have hco : Nat.gcd (2 ^ 64) c.toNat = 1 := (Nat.coprime_two_left.mpr hc).pow_left 64
  exact BitVec.eq_of_toNat_eq
    ((hmod.cancel_right_of_coprime hco).eq_of_lt_of_lt a.isLt b.isLt)

@[simp] theorem zero_mulWord (c : Word) : mulWord 0#64 c = 0#64 := BitVec.zero_mul

/-- Each of the five steps of R71 is injective, whatever the shift amounts (40_seed_expander.md R75). -/
theorem mix64With_injective {sh1 sh2 sh3 : Nat} (h1 : 0 < sh1) (h2 : 0 < sh2) (h3 : 0 < sh3) :
    Function.Injective (mix64With sh1 sh2 sh3) := by
  have hm1 : Function.Injective (fun a => mulWord a Config.smM1) := mulWord_injective (by decide)
  have hm2 : Function.Injective (fun a => mulWord a Config.smM2) := mulWord_injective (by decide)
  exact (xorShiftRight_injective h3).comp (hm2.comp
    ((xorShiftRight_injective h2).comp (hm1.comp (xorShiftRight_injective h1))))

@[simp] theorem mix64With_zero (sh1 sh2 sh3 : Nat) : mix64With sh1 sh2 sh3 0#64 = 0#64 := by
  simp only [mix64With, xorShiftRight_zero, zero_mulWord]

theorem mix64_eq_zero_iff (x : Word) : mix64 x = 0#64 ↔ x = 0#64 :=
  (mix64With_injective (by decide) (by decide) (by decide)).eq_iff' (mix64With_zero _ _ _)

/-! ## A row of SMNEXT -/

/-- One increment and then n of them are n + 1, for any increment. -/
theorem add_add_ofNat_mul (x g : Word) (n : Nat) :
    x + g + BitVec.ofNat 64 n * g = x + BitVec.ofNat 64 (n + 1) * g := by
  rw [BitVec.ofNat_add, BitVec.add_mul, BitVec.one_mul, BitVec.add_assoc, BitVec.add_comm g]

/-- The sequence from a counter already advanced once is the one from before, a word later (R74). -/
theorem expanderWord_add_smGamma (x : Word) (n : Nat) :
    expanderWord (x + Config.smGamma) n = expanderWord x (n + 1) :=
  congrArg mix64 (add_add_ofNat_mul x Config.smGamma n)

theorem mix64_add_smGamma (x : Word) : mix64 (x + Config.smGamma) = expanderWord x 1 := by
  rw [expanderWord, BitVec.one_mul]

/-- SMNEXT with its `sm_next` written out as a load of the advanced counter (R72). -/
theorem exec_smnext (s : State) :
    exec .smnext s = .next (s.respond (s.regs.smLoad (s.regs.smx + Config.smGamma))
      (.word (mix64 (s.regs.smx + Config.smGamma)))) := by
  rw [exec_eq_respond, Registers.afterCommand_smnext, Registers.completionOf_smnext, Registers.smNext_eq]

/-- The first n + 1 words from a counter are its first word and the first n from the advanced counter (R74). -/
theorem expanderWords_succ (x : Word) (n : Nat) :
    (List.range (n + 1)).map (fun j => Completion.word (expanderWord x (j + 1))) =
      .word (mix64 (x + Config.smGamma)) ::
        (List.range n).map fun j => .word (expanderWord (x + Config.smGamma) (j + 1)) := by
  simp only [List.range_succ_eq_map, List.map_cons, List.map_map, Function.comp_def, Nat.succ_eq_add_one, Nat.zero_add,
    mix64_add_smGamma, expanderWord_add_smGamma]

/-- A list of commands goes on from where its first one ends. -/
theorem execAll_cons_of_next {i : Instr} {s t : State} (is : List Instr) (h : exec i s = .next t) :
    execAll (i :: is) s = execAll is t := by
  rw [execAll, h]

/-- A second load leaves nothing of the first. -/
theorem Registers.smLoad_smLoad (r : Registers) (x y : Word) : (r.smLoad x).smLoad y = r.smLoad y := rfl

/-- n SMNEXT deliver the n words of the sequence that starts at the counter, and move nothing but the counter
(R72, R74). -/
theorem execAll_replicate_smnext (n : Nat) (s : State) :
    execAll (List.replicate n .smnext) s =
      .next ⟨s.regs.smLoad (s.regs.smx + BitVec.ofNat 64 n * Config.smGamma), s.inputs,
        s.sent ++ (List.range n).map fun j => .word (expanderWord s.regs.smx (j + 1))⟩ := by
  induction n generalizing s with
  | zero => simp [Registers.smLoad]
  | succ n ih =>
    rw [List.replicate_succ, execAll_cons_of_next _ (exec_smnext s), ih, State.respond_regs,
      State.respond_inputs, State.respond_sent, Registers.smLoad_smx, Registers.smLoad_smLoad, add_add_ofNat_mul,
      expanderWords_succ, List.append_assoc, List.singleton_append]

/-- Loading the counter leaves the registers as they were exactly when it loads the value already there. -/
theorem Registers.smLoad_eq_self_iff (r : Registers) (x : Word) : r.smLoad x = r ↔ x = r.smx :=
  ⟨fun h => congrArg Registers.smx h, fun h => h ▸ rfl⟩

/-! ## The two commands -/

/-- Settles O16: a command ends in the registers and the completion that its row of `afterCommand` and `completionOf`
gives, and SMINIT's is a load of the counter. -/
theorem sminitLoadsTheCounter : Obligations.SminitLoadsTheCounter := by
  unfold Obligations.SminitLoadsTheCounter
  intro seed s
  rw [exec_eq_respond, Registers.afterCommand_sminit, Registers.completionOf_sminit]
  rfl

/-- Settles O18: SMNEXT is one `sm_next`; `mix64` is injective and fixes 0; and n draws move the counter by
n * SM_GAMMA, which is 0 exactly at the multiples of 2^64. -/
theorem smnextReturnsTheMixedCounter : Obligations.SmnextReturnsTheMixedCounter := by
  unfold Obligations.SmnextReturnsTheMixedCounter
  refine ⟨exec_smnext, mix64_eq_zero_iff, fun s n => ⟨_, execAll_replicate_smnext n s, ?_⟩⟩
  rw [Registers.smLoad_eq_self_iff, BitVec.add_right_eq_self, ofNat_mul_smGamma_eq_zero]

end Sys2Proof.Machine
end

section
/-! PROOFS. The generator's step in the library's word operators, and that it is linear over exclusive or
(41_scalar_engine.md R80, R81, R84). -/

namespace Sys2Proof.Machine

/-! ## The step -/

/-- The rotation of R16 is the library's, for the amounts that rule allows. -/
theorem rotl_eq_rotateLeft {k : Nat} (hk : k < 64) (a : Word) : rotl a k = a.rotateLeft k := by
  rw [BitVec.rotateLeft_def, Nat.mod_eq_of_lt hk]
  rfl

/-- R80's new state in the library's operators. -/
theorem genStep_eq (a b : Word) :
    genStep (a, b) = (a.rotateLeft 24 ^^^ (b ^^^ a) ^^^ (b ^^^ a) <<< 16, (b ^^^ a).rotateLeft 37) := by
  rw [← rotl_eq_rotateLeft (by decide), ← rotl_eq_rotateLeft (by decide)]
  rfl

/-- Settles O23: SDRAW is one `xstep` of the scalar pair, whose result is the sum and whose new state is R80's. -/
theorem sdrawReturnsTheSumAndSteps : Obligations.SdrawReturnsTheSumAndSteps := by
  unfold Obligations.SdrawReturnsTheSumAndSteps
  intro s
  rw [exec_eq_respond, Registers.afterCommand_sdraw, Registers.completionOf_sdraw, Registers.drawScalar_eq,
    Registers.scalar, genStep_eq, genResult_eq]
  rfl

/-! ## Exclusive or of words and of states -/

/-- Two sums of two, regrouped. -/
theorem Word.xor_xor_xor_comm (a b c d : Word) : (a ^^^ b) ^^^ (c ^^^ d) = (a ^^^ c) ^^^ (b ^^^ d) := by
  ac_rfl

@[simp] theorem GenState.xor_zeroState (g : GenState) : GenState.xor g zeroState = g :=
  Prod.ext BitVec.xor_zero BitVec.xor_zero

@[simp] theorem GenState.zeroState_xor (g : GenState) : GenState.xor zeroState g = g :=
  Prod.ext BitVec.zero_xor BitVec.zero_xor

@[simp] theorem GenState.xor_self (g : GenState) : GenState.xor g g = zeroState :=
  Prod.ext BitVec.xor_self BitVec.xor_self

theorem GenState.xor_assoc (g h k : GenState) :
    GenState.xor (GenState.xor g h) k = GenState.xor g (GenState.xor h k) :=
  Prod.ext (BitVec.xor_assoc ..) (BitVec.xor_assoc ..)

theorem GenState.xor_comm (g h : GenState) : GenState.xor g h = GenState.xor h g :=
  Prod.ext (BitVec.xor_comm ..) (BitVec.xor_comm ..)

/-- Two sums of two, regrouped. -/
theorem GenState.xor_xor_xor_comm (g h k l : GenState) :
    GenState.xor (GenState.xor g h) (GenState.xor k l) = GenState.xor (GenState.xor g k) (GenState.xor h l) :=
  Prod.ext (Word.xor_xor_xor_comm ..) (Word.xor_xor_xor_comm ..)

/-! ## Linearity of the step -/

theorem rotateLeft_xor (a b : Word) (k : Nat) :
    (a ^^^ b).rotateLeft k = a.rotateLeft k ^^^ b.rotateLeft k := by
  ext i hi
  simp only [BitVec.getElem_rotateLeft, BitVec.getElem_xor]
  split <;> rfl

/-- Rotations by amounts that add up to the width undo each other (R81). -/
theorem rotateLeft_rotateLeft {j k : Nat} (hj : 0 < j) (hk : 0 < k) (h : j + k = 64) (a : Word) :
    (a.rotateLeft j).rotateLeft k = a := by
  ext i hi
  rw [BitVec.getElem_rotateLeft]
  split
  · rw [BitVec.getElem_rotateLeft, dif_neg (by omega)]
    congr 1
    omega
  · rw [BitVec.getElem_rotateLeft, dif_pos (by omega)]
    congr 1
    omega

/-- `T` is linear over exclusive or (R81). -/
theorem genStep_xor (g h : GenState) :
    genStep (GenState.xor g h) = GenState.xor (genStep g) (genStep h) := by
  obtain ⟨a, b⟩ := g
  obtain ⟨c, d⟩ := h
  simp only [GenState.xor, genStep_eq, Word.xor_xor_xor_comm b d a c, rotateLeft_xor, BitVec.shiftLeft_xor_distrib]
  rw [Word.xor_xor_xor_comm (a.rotateLeft 24), Word.xor_xor_xor_comm (a.rotateLeft 24 ^^^ _)]

theorem genStep_iterate_xor (n : Nat) (g h : GenState) :
    genStep^[n] (GenState.xor g h) = GenState.xor (genStep^[n] g) (genStep^[n] h) := by
  induction n generalizing g h with
  | zero => rfl
  | succ n ih => rw [Function.iterate_succ_apply, genStep_xor, ih]; rfl

@[simp] theorem genStep_zeroState : genStep zeroState = zeroState := by decide

/-- A property that exclusive or keeps holds of every word once it holds of the words with one bit set. -/
theorem Word.xor_induction {p : Word → Prop} (bit : ∀ i < 64, p (BitVec.twoPow 64 i))
    (xor : ∀ a b, p a → p b → p (a ^^^ b)) (a : Word) : p a := by
  have below (n : Nat) (hn : n ≤ 64) : ∀ a : Word, (∀ i, n ≤ i → a.getLsbD i = false) → p a := by
    induction n with
    | zero =>
      intro a ha
      have hzero : a = BitVec.twoPow 64 0 ^^^ BitVec.twoPow 64 0 := by
        rw [BitVec.xor_self]
        exact BitVec.eq_of_getLsbD_eq fun i _ => (ha i (Nat.zero_le i)).trans BitVec.getLsbD_zero.symm
      exact hzero ▸ xor _ _ (bit 0 (by decide)) (bit 0 (by decide))
    | succ n ih =>
      intro a ha
      cases hbit : a.getLsbD n with
      | false =>
        exact ih (by omega) a fun i hi => (Nat.eq_or_lt_of_le hi).elim (fun h => h ▸ hbit) (ha i)
      | true =>
        have hsplit : a = (a ^^^ BitVec.twoPow 64 n) ^^^ BitVec.twoPow 64 n := by
          rw [BitVec.xor_assoc, BitVec.xor_self, BitVec.xor_zero]
        rw [hsplit]
        refine xor _ _ (ih (by omega) _ fun i hi => ?_) (bit n (by omega))
        rw [BitVec.getLsbD_xor, BitVec.getLsbD_twoPow]
        obtain rfl | hlt := Nat.eq_or_lt_of_le hi
        · simp [hbit, show n < 64 by omega]
        · simp [ha i hlt, hlt.ne]
  exact below 64 le_rfl a fun i hi => BitVec.getLsbD_of_ge a i hi

/-- Every state is the sum of one with an empty second word and of one step from another such (R80). -/
theorem exists_eq_xor_genStep (g : GenState) :
    ∃ a c : Word, g = GenState.xor (a, 0#64) (genStep (c, 0#64)) := by
  obtain ⟨a, b⟩ := g
  have hsnd : (genStep (b.rotateLeft 27, 0#64)).2 = b := by
    rw [genStep_eq, BitVec.zero_xor]
    exact rotateLeft_rotateLeft (j := 27) (k := 37) (by decide) (by decide) rfl _
  refine ⟨a ^^^ (genStep (b.rotateLeft 27, 0#64)).1, b.rotateLeft 27, Prod.ext ?_ ?_⟩
  · change a = a ^^^ _ ^^^ _
    rw [BitVec.xor_assoc, BitVec.xor_self, BitVec.xor_zero]
  · change b = 0#64 ^^^ _
    rw [BitVec.zero_xor, hsnd]

/-- A property that exclusive or and the step keep holds of every state once it holds of the states with one bit set in
the first word. -/
theorem GenState.xor_step_induction {p : GenState → Prop} (bit : ∀ i < 64, p (BitVec.twoPow 64 i, 0#64))
    (xor : ∀ g h, p g → p h → p (GenState.xor g h)) (step : ∀ g, p g → p (genStep g)) (g : GenState) : p g := by
  have first (a : Word) : p (a, 0#64) :=
    Word.xor_induction (p := fun a => p (a, 0#64)) bit
      (fun a b ha hb => BitVec.xor_zero (x := 0#64) ▸ xor (a, 0#64) (b, 0#64) ha hb) a
  obtain ⟨a, c, rfl⟩ := exists_eq_xor_genStep g
  exact xor _ _ (first a) (step _ (first c))

end Sys2Proof.Machine
end

section
/-! PROOFS. The contract of the jump (41_scalar_engine.md R86): polynomials in `T` as words of 128 bits, multiplied
modulo the polynomial that `T` satisfies. -/

namespace Sys2Proof.Machine

/-! ## A polynomial in the step -/

/-- The coefficients of a polynomial of degree below 128, lowest first. -/
def polyBits (c : BitVec 128) : List Bool := (List.range 128).map c.getLsbD

/-- `c(T)` applied to a state: the scan of R85 over the coefficients. -/
def applyPoly (c : BitVec 128) (g : GenState) : GenState := jumpLoop (polyBits c) zeroState g

/-- The scan of R85 applies the polynomial `poly1 ++ poly0` (R86). -/
theorem jumpWith_eq_applyPoly (poly0 poly1 : Word) (g : GenState) :
    jumpWith poly0 poly1 g = applyPoly (poly1 ++ poly0) g := by
  have hbits : jumpBits poly0 poly1 = polyBits (poly1 ++ poly0) :=
    List.map_congr_left fun i _ => BitVec.getLsbD_append.symm
  rw [jumpWith, hbits]
  rfl

theorem jumpLoop_xor (bits : List Bool) (g h : GenState) :
    jumpLoop bits zeroState (GenState.xor g h) =
      GenState.xor (jumpLoop bits zeroState g) (jumpLoop bits zeroState h) := by
  induction bits generalizing g h with
  | nil => exact (GenState.xor_zeroState zeroState).symm
  | cons bit bits ih =>
    rw [jumpLoop_cons, jumpLoop_cons, jumpLoop_cons, genStep_xor, ih, GenState.xor_xor_xor_comm]
    cases bit <;> simp

theorem jumpLoop_zeroState (bits : List Bool) : jumpLoop bits zeroState zeroState = zeroState := by
  induction bits with
  | nil => rfl
  | cons bit bits ih => rw [jumpLoop_cons, genStep_zeroState, ih, ite_self, GenState.xor_zeroState]

theorem jumpLoop_genStep (bits : List Bool) (g : GenState) :
    jumpLoop bits zeroState (genStep g) = genStep (jumpLoop bits zeroState g) := by
  induction bits generalizing g with
  | nil => exact genStep_zeroState.symm
  | cons bit bits ih =>
    rw [jumpLoop_cons, jumpLoop_cons, genStep_xor, ih]
    cases bit <;> simp

/-- The last coefficient of a scan meets the state as many steps on as there are coefficients before it. -/
theorem jumpLoop_concat (bits : List Bool) (bit : Bool) (g : GenState) :
    jumpLoop (bits ++ [bit]) zeroState g =
      GenState.xor (jumpLoop bits zeroState g) (if bit then genStep^[bits.length] g else zeroState) := by
  induction bits generalizing g with
  | nil => exact (jumpLoop_cons bit [] g).trans (GenState.xor_comm _ _)
  | cons first bits ih =>
    rw [List.cons_append, jumpLoop_cons, jumpLoop_cons, ih, GenState.xor_assoc, List.length_cons,
      Function.iterate_succ_apply]

theorem jumpLoop_replicate_false (n : Nat) (g : GenState) :
    jumpLoop (List.replicate n false) zeroState g = zeroState := by
  induction n generalizing g with
  | zero => rfl
  | succ n ih => rw [List.replicate_succ, jumpLoop_cons, ih]; simp

/-- A scan over the sum of two coefficient sequences is the sum of the scans. -/
theorem jumpLoop_map_xor (l : List Nat) (c d : Nat → Bool) (g : GenState) :
    jumpLoop (l.map fun i => c i ^^ d i) zeroState g =
      GenState.xor (jumpLoop (l.map c) zeroState g) (jumpLoop (l.map d) zeroState g) := by
  induction l generalizing g with
  | nil => exact (GenState.xor_zeroState zeroState).symm
  | cons i l ih =>
    rw [List.map_cons, List.map_cons, List.map_cons, jumpLoop_cons, jumpLoop_cons, jumpLoop_cons, ih,
      GenState.xor_xor_xor_comm]
    cases c i <;> cases d i <;> simp

theorem applyPoly_xor (c d : BitVec 128) (g : GenState) :
    applyPoly (c ^^^ d) g = GenState.xor (applyPoly c g) (applyPoly d g) := by
  rw [applyPoly, polyBits, funext fun i => BitVec.getLsbD_xor (x := c) (y := d) (i := i)]
  exact jumpLoop_map_xor ..

theorem applyPoly_xor_state (c : BitVec 128) (g h : GenState) :
    applyPoly c (GenState.xor g h) = GenState.xor (applyPoly c g) (applyPoly c h) := jumpLoop_xor _ g h

theorem applyPoly_zeroState (c : BitVec 128) : applyPoly c zeroState = zeroState := jumpLoop_zeroState _

theorem applyPoly_genStep (c : BitVec 128) (g : GenState) :
    applyPoly c (genStep g) = genStep (applyPoly c g) := jumpLoop_genStep _ g

theorem applyPoly_zero (g : GenState) : applyPoly 0#128 g = zeroState := by
  have hbits : polyBits 0#128 = List.replicate 128 false := by decide
  rw [applyPoly, hbits, jumpLoop_replicate_false]

/-- The polynomial `x` is one step. -/
theorem applyPoly_x (g : GenState) : applyPoly 2#128 g = genStep g := by
  have hbits : polyBits 2#128 = false :: true :: List.replicate 126 false := by decide
  rw [applyPoly, hbits, jumpLoop_cons, jumpLoop_cons, jumpLoop_replicate_false]
  simp

/-! ## The polynomial of the step -/

/-- `x^128` modulo the characteristic polynomial of `T`, which is `x^128` plus these terms. -/
def xPow128 : BitVec 128 := 0x0008828E513B43D5095B8F76579AA001#128

set_option maxRecDepth 4000 in
/-- On every state with one bit set in its first word, 128 steps are what the polynomial says. -/
theorem genStep_iterate_128_bit :
    ∀ i < 64, genStep^[128] (BitVec.twoPow 64 i, 0#64) = applyPoly xPow128 (BitVec.twoPow 64 i, 0#64) := by
  decide

/-- `T` satisfies its characteristic polynomial: both sides are linear and commute with `T`, so a few states decide. -/
theorem genStep_iterate_128 (g : GenState) : genStep^[128] g = applyPoly xPow128 g := by
  induction g using GenState.xor_step_induction with
  | bit i hi => exact genStep_iterate_128_bit i hi
  | xor g h hg hh => rw [genStep_iterate_xor, applyPoly_xor_state, hg, hh]
  | step g hg =>
    rw [applyPoly_genStep, ← hg]
    exact (Function.Commute.refl genStep).iterate_left 128 g

/-! ## Multiplication modulo that polynomial -/

/-- `x` times a polynomial, reduced. -/
def mulX (c : BitVec 128) : BitVec 128 := c <<< 1 ^^^ bif c.msb then xPow128 else 0#128

/-- The product of a polynomial and the one with the coefficients `bits`, reduced, by Horner's rule. -/
def mulBits (c : BitVec 128) : List Bool → BitVec 128
  | [] => 0#128
  | bit :: bits => (bif bit then c else 0#128) ^^^ mulX (mulBits c bits)

/-- The square of a polynomial, reduced. -/
def squarePoly (c : BitVec 128) : BitVec 128 := mulBits c (polyBits c)

theorem polyBits_length (c : BitVec 128) : (polyBits c).length = 128 := by simp [polyBits]

/-- Shifting the coefficients by one moves the highest out at the other end. -/
theorem polyBits_shiftLeft_concat (c : BitVec 128) : polyBits (c <<< 1) ++ [c.msb] = false :: polyBits c := by
  have hlow : polyBits (c <<< 1) = false :: (List.range 127).map c.getLsbD := by
    rw [polyBits, List.range_succ_eq_map, List.map_cons, List.map_map]
    refine congrArg₂ List.cons (by simp) (List.map_congr_left fun i hi => ?_)
    have hlt : i + 1 < 128 := Nat.succ_lt_succ (List.mem_range.mp hi)
    simp [hlt, BitVec.getLsbD_eq_getElem (Nat.lt_of_succ_lt hlt)]
  have hhigh : polyBits c = (List.range 127).map c.getLsbD ++ [c.msb] := by
    rw [polyBits, List.range_succ, List.map_append]
    rfl
  rw [hlow, hhigh]
  rfl

theorem applyPoly_mulX (c : BitVec 128) (g : GenState) : applyPoly (mulX c) g = applyPoly c (genStep g) := by
  have hstep : applyPoly c (genStep g) = jumpLoop (polyBits (c <<< 1) ++ [c.msb]) zeroState g := by
    rw [polyBits_shiftLeft_concat, jumpLoop_cons, if_neg (by decide), GenState.zeroState_xor, applyPoly]
  rw [hstep, jumpLoop_concat, polyBits_length, genStep_iterate_128, mulX, applyPoly_xor, ← applyPoly]
  cases c.msb with
  | false => rw [cond_false, applyPoly_zero, if_neg Bool.false_ne_true]
  | true => rw [cond_true, if_pos rfl]

/-- The product of two polynomials acts as one after the other. -/
theorem applyPoly_mulBits (c : BitVec 128) (bits : List Bool) (g : GenState) :
    applyPoly (mulBits c bits) g = applyPoly c (jumpLoop bits zeroState g) := by
  induction bits generalizing g with
  | nil => rw [mulBits, applyPoly_zero, jumpLoop, applyPoly_zeroState]
  | cons bit bits ih =>
    rw [mulBits, applyPoly_xor, applyPoly_mulX, ih, jumpLoop_cons, applyPoly_xor_state]
    cases bit with
    | false => rw [cond_false, applyPoly_zero, if_neg Bool.false_ne_true, applyPoly_zeroState]
    | true => rw [cond_true, if_pos rfl]

theorem applyPoly_squarePoly (c : BitVec 128) (g : GenState) :
    applyPoly (squarePoly c) g = applyPoly c (applyPoly c g) := applyPoly_mulBits c (polyBits c) g

/-- n squarings of `x` make `2^n` steps. -/
theorem applyPoly_squarePoly_iterate (n : Nat) (g : GenState) :
    applyPoly (squarePoly^[n] 2#128) g = genStep^[2 ^ n] g := by
  induction n generalizing g with
  | zero => exact applyPoly_x g
  | succ n ih =>
    rw [Function.iterate_succ_apply', applyPoly_squarePoly, ih, ih, ← Function.iterate_add_apply, pow_succ,
      Nat.mul_two]

set_option maxRecDepth 6000 in
/-- R87's equation: 64 squarings of `x` give the jump polynomial. -/
theorem squarePoly_iterate_64 : squarePoly^[64] 2#128 = Config.jumpPoly1 ++ Config.jumpPoly0 := by decide

/-- The contract of SJUMP (R86), for every state. -/
theorem jump_eq_iterate (g : GenState) : jump g = genStep^[Config.jumpDistance] g := by
  rw [jump, jumpWith_eq_applyPoly, ← squarePoly_iterate_64, applyPoly_squarePoly_iterate, Config.jumpDistance]

end Sys2Proof.Machine
end

section
/-! PROOFS. Where the scalar engine's stream stands after each step (41_scalar_engine.md R83, R84, R86, R92). -/

namespace Sys2Proof.Machine

/-- SSEED leaves the first two words of the seed's sequence, by name (R83). -/
@[simp] theorem Registers.seedScalar_scalar (r : Registers) (seed : Word) :
    (r.seedScalar seed).scalar = seededScalar seed := by
  rw [r.seedScalar_eq rfl rfl (mix64_add_smGamma seed)
    ((mix64_add_smGamma (seed + Config.smGamma)).trans (expanderWord_add_smGamma seed 1))]
  rfl

/-- A command takes the scalar engine from a position to the one that `scalarPosition` says. -/
theorem Registers.atScalar_afterCommand {r : Registers} {p : Word × Nat} (h : r.atScalar p) (i : Instr) :
    (r.afterCommand i).atScalar (scalarPosition p i) := by
  cases i with
  | sminit seed => exact h
  | smnext => exact r.smNext_scalar.trans h
  | sseed seed => exact r.seedScalar_scalar seed
  | sdraw =>
    rw [Registers.afterCommand_sdraw, Registers.drawScalar_eq, Registers.atScalar, Registers.setScalar_scalar, h]
    exact (Function.iterate_succ_apply' ..).symm
  | sjump =>
    rw [Registers.afterCommand_sjump, Registers.jumpScalar_eq, Registers.atScalar, Registers.setScalar_scalar, h,
      jump_eq_iterate, ← Function.iterate_add_apply, Nat.add_comm]
    rfl
  | vseed seed => exact (r.seedVector_scalar seed).trans h
  | vdraw => exact r.drawVector_scalar.trans h

/-- SDRAW answers the word of the position (R84, R92). -/
theorem Registers.completionOf_sdraw_of_atScalar {r : Registers} {p : Word × Nat} (h : r.atScalar p) :
    r.completionOf .sdraw = .word (scalarWord p) := by
  rw [Registers.completionOf_sdraw, Registers.drawScalar_eq, h]
  rfl

/-- Settles O52: a step idles, or runs one command, which moves the position as `scalarPosition` says. -/
theorem stepsKeepTheScalarPosition : Obligations.StepsKeepTheScalarPosition := by
  unfold Obligations.StepsKeepTheScalarPosition
  intro p s t hp hreset hstep
  obtain ⟨hin, rfl⟩ | ⟨cw, rest, i, hin, hdec, rfl⟩ | ⟨abandoned, after, rest, hin, -, -⟩ := step_cases hstep
  · exact .inl ⟨hin, hp⟩
  · refine .inr ⟨cw, i, rest, hin, hdec, Registers.atScalar_afterCommand hp i, ?_⟩
    rintro rfl
    exact congrArg (fun c => s.sent ++ [c]) (Registers.completionOf_sdraw_of_atScalar hp)
  · simp [State.resetNext, hin] at hreset

end Sys2Proof.Machine
end

section
/-! PROOFS. Where the vector engine's stream stands after each step (42_vector_engine.md R103, R104, R106, R108). -/

namespace Sys2Proof.Machine

/-! ## VSEED -/

/-- The counter after n + 1 advances is one advance on from that after n (40_seed_expander.md R72). -/
theorem add_ofNat_mul_add (x g : Word) (n : Nat) :
    x + BitVec.ofNat 64 n * g + g = x + BitVec.ofNat 64 (n + 1) * g := by
  rw [← add_add_ofNat_mul, BitVec.add_assoc, BitVec.add_assoc, BitVec.add_comm g]

/-- VSEED in the words of the seed's sequence: 1 to 4 into `vs0`, 5 to 8 into `vs1` (R103). -/
theorem Registers.seedVector_eq_expanderWords (r : Registers) (seed : Word) :
    r.seedVector seed =
      { r with
        smx := seed + BitVec.ofNat 64 8 * Config.smGamma
        vs0 := ⟨expanderWord seed 1, expanderWord seed 2, expanderWord seed 3, expanderWord seed 4⟩
        vs1 := ⟨expanderWord seed 5, expanderWord seed 6, expanderWord seed 7, expanderWord seed 8⟩
        vcur := 0#2 } :=
  have advance := add_ofNat_mul_add seed Config.smGamma
  have once : seed + Config.smGamma = seed + BitVec.ofNat 64 1 * Config.smGamma := by rw [BitVec.one_mul]
  r.seedVector_eq once (advance 1) (advance 2) (advance 3) (advance 4) (advance 5) (advance 6) (advance 7)
    rfl rfl rfl rfl rfl rfl rfl rfl

@[simp] theorem Registers.seedVector_lane (r : Registers) (seed : Word) (k : Fin 4) :
    (r.seedVector seed).lane k = seededLane seed k := by
  rw [r.seedVector_eq_expanderWords]
  fin_cases k <;> rfl

/-- VSEED leaves the vector engine at draw 0: lanes seeded, buffer empty (R103). -/
theorem Registers.seedVector_atVector (r : Registers) (seed : Word) : (r.seedVector seed).atVector (seed, 0) := by
  refine ⟨?_, fun k => ?_, fun k hk => ?_⟩
  · simp only [r.seedVector_vcur, BitVec.toNat_ofNat, Nat.zero_mod, Nat.sub_zero, Nat.mod_self]
  · simp only [r.seedVector_lane, Nat.zero_add, Nat.reduceDiv, Function.iterate_zero, id]
  · simp at hk

/-! ## VDRAW -/

section Position
variable {r : Registers} {p : Word × Nat}

/-- The buffer is empty at every fourth draw. -/
theorem Registers.vcur_eq_zero_iff_of_atVector (h : r.atVector p) : r.vcur = 0#2 ↔ p.2 % 4 = 0 := by
  obtain ⟨hcur, -, -⟩ := h
  rw [← BitVec.toNat_inj, hcur, BitVec.toNat_ofNat]
  omega

/-- Between refills the cursor counts the words left, and a draw lowers it to the number of the slot it returns. -/
theorem Registers.toNat_vcur_of_atVector (h : r.atVector p) (hn : p.2 % 4 ≠ 0) :
    (r.vcur - 1#2).toNat = 3 - p.2 % 4 ∧ r.vcur.toNat = 4 - p.2 % 4 := by
  obtain ⟨hcur, -, -⟩ := h
  rw [BitVec.toNat_sub, BitVec.toNat_ofNat, hcur]
  omega

/-- A VDRAW that refills takes a position at a multiple of four to the next (R104). -/
theorem Registers.atVector_drawVector_empty (h : r.atVector p) (hn : p.2 % 4 = 0) :
    r.drawVector.2.atVector (p.1, p.2 + 1) := by
  rw [Registers.drawVector_empty ((vcur_eq_zero_iff_of_atVector h).mpr hn)]
  obtain ⟨-, hlane, -⟩ := h
  have hround : (p.2 + 3) / 4 = p.2 / 4 := by omega
  refine ⟨?_, fun k => ?_, fun k _ => ?_⟩
  · change 3 = (4 - (p.2 + 1) % 4) % 4
    omega
  · have hnext : (p.2 + 1 + 3) / 4 = p.2 / 4 + 1 := by omega
    rw [hnext, Function.iterate_succ_apply', ← hround, ← hlane k]
    exact r.refill_lane k
  · have hsame : (p.2 + 1) / 4 = p.2 / 4 := by omega
    rw [hsame, ← hround, ← hlane k]
    exact r.refill_vbuf_get k

/-- A VDRAW from a filled buffer takes a position between refills to the next (R104, R106). -/
theorem Registers.atVector_drawVector_holds (h : r.atVector p) (hn : p.2 % 4 ≠ 0) :
    r.drawVector.2.atVector (p.1, p.2 + 1) := by
  obtain ⟨hdown, hnow⟩ := toNat_vcur_of_atVector h hn
  rw [Registers.drawVector_holds (mt (vcur_eq_zero_iff_of_atVector h).mp hn)]
  obtain ⟨-, hlane, hslot⟩ := h
  refine ⟨?_, fun k => ?_, fun k hk => ?_⟩
  · change (r.vcur - 1#2).toNat = (4 - (p.2 + 1) % 4) % 4
    omega
  · have hround : (p.2 + 1 + 3) / 4 = (p.2 + 3) / 4 := by omega
    rw [hround]
    exact hlane k
  · replace hk : k.val < (r.vcur - 1#2).toNat := hk
    have hround : (p.2 + 1) / 4 = p.2 / 4 := by omega
    rw [hround]
    exact hslot k (by omega)

theorem Registers.atVector_drawVector (h : r.atVector p) : r.drawVector.2.atVector (p.1, p.2 + 1) := by
  by_cases hn : p.2 % 4 = 0
  · exact Registers.atVector_drawVector_empty h hn
  · exact Registers.atVector_drawVector_holds h hn

/-- VDRAW answers the word of the position: lane 3's sum at a refill, else the slot below the cursor (R104, R108). -/
theorem Registers.drawVector_word_of_atVector (h : r.atVector p) : r.drawVector.1 = vectorWord p := by
  by_cases hn : p.2 % 4 = 0
  · have hround : (p.2 + 3) / 4 = p.2 / 4 := by omega
    rw [Registers.drawVector_empty ((vcur_eq_zero_iff_of_atVector h).mpr hn), vectorWord, hn]
    obtain ⟨-, hlane, -⟩ := h
    rw [hlane 3, hround]
    rfl
  · obtain ⟨hdown, hnow⟩ := toNat_vcur_of_atVector h hn
    rw [Registers.drawVector_holds (mt (vcur_eq_zero_iff_of_atVector h).mp hn), hdown]
    obtain ⟨-, -, hslot⟩ := h
    exact hslot _ (by rw [Fin.val_ofNat]; omega)

/-! ## Every command -/

/-- A position is about the cursor, the lanes and the buffer alone. -/
theorem Registers.atVector_congr {r' : Registers} (h : r.atVector p) (hcur : r'.vcur = r.vcur)
    (hlane : ∀ k, r'.lane k = r.lane k) (hbuf : r'.vbuf = r.vbuf) : r'.atVector p := by
  simpa only [Registers.atVector, hcur, hlane, hbuf] using h

/-- A command takes the vector engine from a position to the one that `vectorPosition` says. -/
theorem Registers.atVector_afterCommand (h : r.atVector p) (i : Instr) :
    (r.afterCommand i).atVector (vectorPosition p i) := by
  cases i with
  | sminit seed => exact h
  | smnext => exact atVector_congr h r.smNext_vcur r.smNext_lane r.smNext_vbuf
  | sseed seed =>
    exact atVector_congr h (r.seedScalar_vcur seed) (r.seedScalar_lane seed) (r.seedScalar_vbuf seed)
  | sdraw => exact atVector_congr h r.drawScalar_vcur r.drawScalar_lane r.drawScalar_vbuf
  | sjump => exact atVector_congr h r.jumpScalar_vcur r.jumpScalar_lane r.jumpScalar_vbuf
  | vseed seed => exact r.seedVector_atVector seed
  | vdraw => exact atVector_drawVector h

end Position

/-- Settles O53: a step idles, or runs one command, which moves the position as `vectorPosition` says. -/
theorem stepsKeepTheVectorPosition : Obligations.StepsKeepTheVectorPosition := by
  unfold Obligations.StepsKeepTheVectorPosition
  intro p s t hp hreset hstep
  obtain ⟨hin, rfl⟩ | ⟨cw, rest, i, hin, hdec, rfl⟩ | ⟨abandoned, after, rest, hin, -, -⟩ := step_cases hstep
  · exact .inl ⟨hin, hp⟩
  · refine .inr ⟨cw, i, rest, hin, hdec, Registers.atVector_afterCommand hp i, ?_⟩
    rintro rfl
    exact congrArg (fun w => s.sent ++ [.word w]) (Registers.drawVector_word_of_atVector hp)
  · simp [State.resetNext, hin] at hreset

end Sys2Proof.Machine
end

section
/-! PROOFS. The lockstep step and the two forms of VDRAW (42_vector_engine.md R101, R104). -/

namespace Sys2Proof.Machine

section Lockstep
variable (r : Registers) (k : Fin 4)

@[simp] theorem Registers.vstep_result_get : r.vstep.1.get k = (xstep (r.vs0.get k) (r.vs1.get k)).1 := by
  simp only [Registers.vstep, Lanes.get_tabulate]

@[simp] theorem Registers.vstep_vs0_get : r.vstep.2.vs0.get k = (xstep (r.vs0.get k) (r.vs1.get k)).2.1 := by
  simp only [Registers.vstep, Lanes.get_tabulate]

@[simp] theorem Registers.vstep_vs1_get : r.vstep.2.vs1.get k = (xstep (r.vs0.get k) (r.vs1.get k)).2.2 := by
  simp only [Registers.vstep, Lanes.get_tabulate]

theorem Registers.vstep_frame : r.vstep.2 = { r with vs0 := r.vstep.2.vs0, vs1 := r.vstep.2.vs1 } := rfl

end Lockstep

/-- Settles O33: each lane goes through `xstep`, and no other register changes. -/
theorem lockstepStepsEachLane : Obligations.LockstepStepsEachLane := by
  unfold Obligations.LockstepStepsEachLane
  exact fun r => ⟨fun k => ⟨r.vstep_result_get k, r.vstep_vs0_get k, r.vstep_vs1_get k⟩, r.vstep_frame⟩

/-- The registers after a refill, one by one: the lanes stepped and their sums in the buffer (R104, R105). -/
theorem Registers.refill_eq (r : Registers) :
    r.refill =
      { r with
        vs0 := Lanes.tabulate fun k => (xstep (r.vs0.get k) (r.vs1.get k)).2.1
        vs1 := Lanes.tabulate fun k => (xstep (r.vs0.get k) (r.vs1.get k)).2.2
        vbuf := Lanes.tabulate fun k => r.vs0.get k + r.vs1.get k } := rfl

section Vdraw
variable {s : State}

/-- VDRAW from an empty buffer refills it and returns lane 3's word (R104). -/
theorem exec_vdraw_empty (h : s.regs.vcur = 0#2) :
    exec .vdraw s = .next { s with
      regs := { s.regs.refill with vcur := 3#2 }, sent := s.sent ++ [.word (genResult (s.regs.lane 3))] } := by
  rw [exec_eq_respond, Registers.afterCommand_vdraw, Registers.completionOf_vdraw, Registers.drawVector_empty h,
    State.respond_eq]

/-- VDRAW from a filled buffer lowers the cursor and returns the slot it then names (R104). -/
theorem exec_vdraw_holds {c : BitVec 2} (h : s.regs.vcur = c) (hc : c ≠ 0#2) :
    exec .vdraw s = .next { s with
      regs := { s.regs with vcur := c - 1#2 }
      sent := s.sent ++ [.word (s.regs.vbuf.get (Fin.ofNat 4 (c - 1#2).toNat))] } := by
  subst h
  rw [exec_eq_respond, Registers.afterCommand_vdraw, Registers.completionOf_vdraw, Registers.drawVector_holds hc,
    State.respond_eq]

end Vdraw

/-- Settles O37: the refill, and the three cursor values from which VDRAW returns the next slot. -/
theorem vdrawRefillsOrReturnsTheNextSlot : Obligations.VdrawRefillsOrReturnsTheNextSlot := by
  unfold Obligations.VdrawRefillsOrReturnsTheNextSlot
  refine fun s => ⟨fun h => ?_, fun h => ?_, fun h => ?_, fun h => ?_⟩
  · rw [exec_vdraw_empty h, Registers.refill_eq, genResult_eq]
    rfl
  · exact exec_vdraw_holds h (by decide)
  · exact exec_vdraw_holds h (by decide)
  · exact exec_vdraw_holds h (by decide)

end Sys2Proof.Machine
end

section
/-! PROOFS. Every command completes, and no step faults (60_exceptions.md R120; 30_encoding.md R53). -/

namespace Sys2Proof.Machine

/-- The column `returns` of R55, read off the completions (R53). -/
theorem Registers.completionOf_eq_word_iff (r : Registers) (i : Instr) :
    (∃ w, r.completionOf i = .word w) ↔ (i = .smnext ∨ i = .sdraw ∨ i = .vdraw) := by
  cases i with
  | sminit _ | sseed _ | sjump | vseed _ => simp
  | smnext | sdraw | vdraw => simp

/-- Settles O6: a command ends by `respond`, with the one completion of `completionOf`; and the table of exceptions is
empty (R121), so `Fault` has no value a step could stop with. -/
theorem everyCommandCompletes : Obligations.EveryCommandCompletes := by
  unfold Obligations.EveryCommandCompletes
  refine ⟨fun i s => ?_, fun _ f => nomatch f⟩
  exact ⟨_, s.regs.completionOf i, exec_eq_respond i s, s.respond_inputs _ _, s.respond_sent _ _,
    s.regs.completionOf_eq_word_iff i⟩

end Sys2Proof.Machine
end

section
/-! PROOFS. A command's word decodes to that command (30_encoding.md R51, R54, R65). -/

namespace Sys2Proof

section Fields
variable (u : UnitField) (f : FnField) (data : Word)

/-- Above `data` stand the four bits of `unit` and `fn` (R51). -/
theorem getLsbD_formatC (i : Nat) : (formatC u f data).getLsbD (64 + i) = (u.code ++ f.code).getLsbD i := by
  rw [formatC, BitVec.getLsbD_append, if_neg (by omega), Nat.add_sub_cancel_left]

@[simp] theorem unitOf_formatC : unitOf (formatC u f data) = u := by
  rw [unitOf, getLsbD_formatC u f data 3, getLsbD_formatC u f data 2]
  cases u <;> cases f <;> rfl

@[simp] theorem fnOf_formatC : fnOf (formatC u f data) = f := by
  rw [fnOf, getLsbD_formatC u f data 1, getLsbD_formatC u f data 0]
  cases u <;> cases f <;> rfl

@[simp] theorem dataOf_formatC : dataOf (formatC u f data) = data :=
  BitVec.extractLsb'_append_eq_right

end Fields

/-- Decoding takes the encoding of a command back to it (R65). -/
@[simp] theorem decode_encode (i : Instr) : decode (encode i) = .command i := by
  cases i <;> simp only [encode, decode, unitOf_formatC, fnOf_formatC, dataOf_formatC]

end Sys2Proof
end

section
/-! PROOFS. Which steps are refused (30_encoding.md R56; 60_exceptions.md R127; 70_reset_and_hazards.md R141, R147). -/

namespace Sys2Proof.Machine

/-- A command word is refused exactly when its code is reserved, since no command is refused (R56, R120). -/
theorem acceptCommand_refused_iff (cw : CmdWord) (s : State) :
    (∃ r, acceptCommand cw s = .refused r) ↔ (HostEvent.command cw).defined = false := by
  unfold acceptCommand HostEvent.defined
  cases hd : decode cw with
  | command i => simp [hd, exec_eq_respond]
  | invalid op => simp [hd]

/-- A reset is refused exactly during a word with a reserved code (R127, R141). -/
theorem acceptReset_refused_iff (abandoned : Option CmdWord) (after : Registers) (s : State) :
    (∃ r, acceptReset abandoned after s = .refused r) ↔ (HostEvent.reset abandoned after).defined = false := by
  unfold acceptReset HostEvent.defined
  cases hd : abandoned.map decode with
  | none => simp [hd]
  | some d =>
    cases d with
    | command i => simp [hd]
    | invalid op => simp [hd]

/-- The port refuses exactly the events the spec gives no effect. -/
theorem acceptEvent_refused_iff (e : HostEvent) (s : State) :
    (∃ r, acceptEvent e s = .refused r) ↔ e.defined = false := by
  cases e with
  | command cw => exact acceptCommand_refused_iff cw s
  | reset abandoned after => exact acceptReset_refused_iff abandoned after s
  | overlap first second => exact ⟨fun _ => rfl, fun _ => ⟨.overlappingCommands, rfl⟩⟩

/-- Settles O10: an idle step is no refusal, and any other answers what the port answers to the oldest event. -/
theorem refusedOnlyForUndefinedEvents : Obligations.RefusedOnlyForUndefinedEvents := by
  unfold Obligations.RefusedOnlyForUndefinedEvents
  intro s
  cases hin : s.inputs with
  | nil => simp [step_nil hin, idle]
  | cons e rest =>
    rw [step_cons hin, acceptEvent_refused_iff]
    simp

end Sys2Proof.Machine
end

section
/-! PROOFS. A live generator stays live, and the seed commands make live ones (41_scalar_engine.md R81, R90, R91;
42_vector_engine.md R111; 70_reset_and_hazards.md R144). -/

namespace Sys2Proof.Machine

/-! ## The step and the jump -/

theorem rotateLeft_injective {k : Nat} (h0 : 0 < k) (hk : k < 64) :
    Function.Injective fun a : Word => a.rotateLeft k :=
  Function.LeftInverse.injective (g := fun a => a.rotateLeft (64 - k))
    fun a => rotateLeft_rotateLeft h0 (Nat.sub_pos_of_lt hk) (Nat.add_sub_cancel' hk.le) a

/-- `T` is injective: its second word gives `ss1 ^ ss0` back, and with that its first word gives `ss0` (R81). -/
theorem genStep_injective : Function.Injective genStep := by
  rintro ⟨a, b⟩ ⟨c, d⟩ h
  rw [genStep_eq, genStep_eq, Prod.mk.injEq] at h
  obtain ⟨hfst, hsnd⟩ := h
  have hsum : b ^^^ a = d ^^^ c := rotateLeft_injective (by decide) (by decide) hsnd
  rw [hsum, BitVec.xor_left_inj, BitVec.xor_left_inj] at hfst
  obtain rfl : a = c := rotateLeft_injective (by decide) (by decide) hfst
  rw [(BitVec.xor_left_inj a).mp hsum]

/-- However many steps are taken, only the all-zero state gets to the all-zero state. -/
theorem genStep_iterate_eq_zeroState_iff (n : Nat) (g : GenState) : genStep^[n] g = zeroState ↔ g = zeroState :=
  (genStep_injective.iterate n).eq_iff' (Function.iterate_fixed genStep_zeroState n)

theorem genStep_eq_zeroState_iff (g : GenState) : genStep g = zeroState ↔ g = zeroState :=
  genStep_iterate_eq_zeroState_iff 1 g

theorem jump_eq_zeroState_iff (g : GenState) : jump g = zeroState ↔ g = zeroState := by
  rw [jump_eq_iterate, genStep_iterate_eq_zeroState_iff]

/-! ## What the seed commands load -/

theorem mix64_injective : Function.Injective mix64 := mix64With_injective (by decide) (by decide) (by decide)

/-- The counter after m + d advances is d advances on from that after m, for any increment. -/
theorem add_ofNat_add_mul (x g : Word) (m d : Nat) :
    x + BitVec.ofNat 64 (m + d) * g = x + BitVec.ofNat 64 m * g + BitVec.ofNat 64 d * g := by
  rw [BitVec.ofNat_add, BitVec.add_mul, BitVec.add_assoc]

/-- Two words of one seed's sequence are equal only a multiple of 2^64 draws apart (40_seed_expander.md R75). -/
theorem expanderWord_add_eq_iff (seed : Word) (m d : Nat) :
    expanderWord seed (m + d) = expanderWord seed m ↔ 2 ^ 64 ∣ d := by
  rw [expanderWord, expanderWord, mix64_injective.eq_iff, add_ofNat_add_mul, BitVec.add_right_eq_self,
    ofNat_mul_smGamma_eq_zero]

/-- Two words of one seed's sequence less than 2^64 draws apart are no degenerate state, being different. -/
theorem expanderWord_pair_ne_zeroState (seed : Word) (m : Nat) {d : Nat} (h0 : 0 < d) (hd : d < 2 ^ 64) :
    (expanderWord seed m, expanderWord seed (m + d)) ≠ zeroState := by
  intro h
  obtain ⟨hm, hmd⟩ := Prod.mk.inj h
  exact Nat.not_dvd_of_pos_of_lt h0 hd ((expanderWord_add_eq_iff seed m d).mp (hmd.trans hm.symm))

theorem seededScalar_ne_zeroState (seed : Word) : seededScalar seed ≠ zeroState :=
  expanderWord_pair_ne_zeroState seed 1 (d := 1) (by decide) (by decide)

theorem seededLane_ne_zeroState (seed : Word) (k : Fin 4) : seededLane seed k ≠ zeroState :=
  expanderWord_pair_ne_zeroState seed (k.val + 1) (d := 4) (by decide) (by decide)

/-- SSEED leaves a live scalar engine (R90). -/
theorem Registers.seedScalar_scalarLive (r : Registers) (seed : Word) : (r.seedScalar seed).scalarLive :=
  (r.seedScalar_scalar seed).trans_ne (seededScalar_ne_zeroState seed)

/-- VSEED leaves live lanes (42_vector_engine.md R111). -/
theorem Registers.seedVector_lanesLive (r : Registers) (seed : Word) : (r.seedVector seed).lanesLive :=
  fun k => (r.seedVector_lane seed k).trans_ne (seededLane_ne_zeroState seed k)

/-! ## Every command -/

/-- VDRAW steps every lane when it refills, and no lane otherwise (42_vector_engine.md R104). -/
theorem Registers.drawVector_lane (r : Registers) (k : Fin 4) :
    r.drawVector.2.lane k = if r.vcur = 0#2 then genStep (r.lane k) else r.lane k := by
  split
  next h => rw [Registers.drawVector_empty h]; exact r.refill_lane k
  next h => rw [Registers.drawVector_holds h]; rfl

section Live
variable {r : Registers}

/-- SSEED, SDRAW and SJUMP are the commands that write the scalar engine, and none of them makes it degenerate
(R90, R91). -/
theorem Registers.scalarLive_afterCommand (h : r.scalarLive) (i : Instr) : (r.afterCommand i).scalarLive := by
  cases i with
  | sminit seed => exact h
  | smnext => rwa [Registers.scalarLive, Registers.afterCommand_smnext, r.smNext_scalar]
  | sseed seed => exact r.seedScalar_scalarLive seed
  | sdraw => exact mt (genStep_eq_zeroState_iff r.scalar).mp h
  | sjump =>
    rw [Registers.scalarLive, Registers.afterCommand_sjump, Registers.jumpScalar_eq, Registers.setScalar_scalar]
    exact mt (jump_eq_zeroState_iff r.scalar).mp h
  | vseed seed => rwa [Registers.scalarLive, Registers.afterCommand_vseed, r.seedVector_scalar]
  | vdraw => rwa [Registers.scalarLive, Registers.afterCommand_vdraw, r.drawVector_scalar]

/-- VSEED and a VDRAW that refills are the commands that write the lanes, and neither makes one degenerate (R111). -/
theorem Registers.lanesLive_afterCommand (h : r.lanesLive) (i : Instr) : (r.afterCommand i).lanesLive := by
  intro k
  have hk : r.lane k ≠ zeroState := h k
  cases i with
  | sminit seed => exact hk
  | smnext => rwa [Registers.afterCommand_smnext, r.smNext_lane]
  | sseed seed => rwa [Registers.afterCommand_sseed, r.seedScalar_lane]
  | sdraw => exact hk
  | sjump => rwa [Registers.afterCommand_sjump, r.jumpScalar_lane]
  | vseed seed => exact r.seedVector_lanesLive seed k
  | vdraw =>
    rw [Registers.afterCommand_vdraw, r.drawVector_lane]
    split
    · exact mt (genStep_eq_zeroState_iff (r.lane k)).mp hk
    · exact hk

end Live

/-- What every command keeps of the registers, a list of commands keeps, and the list completes. -/
theorem execAll_keeps {P : Registers → Prop} (keeps : ∀ {r}, P r → ∀ i, P (r.afterCommand i)) (is : List Instr)
    {s : State} (h : P s.regs) : ∃ t, execAll is s = .next t ∧ P t.regs := by
  induction is generalizing s with
  | nil => exact ⟨s, rfl, h⟩
  | cons i is ih =>
    rw [execAll_cons]
    exact ih (keeps h i)

/-- Settles O13: the seed command makes its engine live, and the commands that follow keep it so. -/
theorem seededEnginesStayLive : Obligations.SeededEnginesStayLive := by
  unfold Obligations.SeededEnginesStayLive
  intro seed is s
  rw [execAll_cons, execAll_cons]
  exact ⟨execAll_keeps Registers.scalarLive_afterCommand is (s.regs.seedScalar_scalarLive seed),
    execAll_keeps Registers.lanesLive_afterCommand is (s.regs.seedVector_lanesLive seed)⟩

end Sys2Proof.Machine
end

section
/-! PROOFS. After a reset (70_reset_and_hazards.md R142). -/

namespace Sys2Proof.Machine

/-- The step on a command's word is that command, on the state with the word taken off the port (30_encoding.md R50). -/
theorem step_present_encode (s : State) (i : Instr) : step (s.present (encode i)) = exec i s :=
  (step_cons (s.present_inputs (encode i))).trans (acceptCommand_of_decode (decode_encode i) s)

/-- Settles O12: a reset leaves nothing at the port, so the step idles; and a command completes from every state. -/
theorem afterResetEveryCommandIsAccepted : Obligations.AfterResetEveryCommandIsAccepted := by
  unfold Obligations.AfterResetEveryCommandIsAccepted
  intro after sent s
  refine ⟨step_nil rfl, fun i => ⟨_, exec_eq_respond i s, ?_⟩⟩
  rw [step_present_encode, exec_eq_respond]

end Sys2Proof.Machine
end

section
/-! PROOFS. The decoder against the opcode map and the encoder (30_encoding.md R51, R54 to R56, R65). -/

namespace Sys2Proof

/-! ## A command word is its three fields -/

theorem opOf_eq_extract (cw : CmdWord) : opOf cw = cw.extractLsb' 66 2 ++ cw.extractLsb' 64 2 :=
  (BitVec.extractLsb'_append_extractLsb'_eq_extractLsb' (start₁ := 64) (len₁ := 2) (len₂ := 2) rfl).symm

theorem unitOf_code (cw : CmdWord) : (unitOf cw).code = cw.extractLsb' 66 2 := by
  refine BitVec.eq_of_getLsbD_eq fun j hj => ?_
  rw [unitOf, BitVec.getLsbD_extractLsb', decide_eq_true hj, Bool.true_and]
  obtain rfl | rfl : j = 0 ∨ j = 1 := by omega
  · cases cw.getLsbD 67 <;> cases cw.getLsbD 66 <;> rfl
  · cases cw.getLsbD 67 <;> cases cw.getLsbD 66 <;> rfl

theorem fnOf_code (cw : CmdWord) : (fnOf cw).code = cw.extractLsb' 64 2 := by
  refine BitVec.eq_of_getLsbD_eq fun j hj => ?_
  rw [fnOf, BitVec.getLsbD_extractLsb', decide_eq_true hj, Bool.true_and]
  obtain rfl | rfl : j = 0 ∨ j = 1 := by omega
  · cases cw.getLsbD 65 <;> cases cw.getLsbD 64 <;> rfl
  · cases cw.getLsbD 65 <;> cases cw.getLsbD 64 <;> rfl

/-- `op` is the two fields `unit` and `fn` together (R51). -/
theorem opOf_eq_codes (cw : CmdWord) : opOf cw = (unitOf cw).code ++ (fnOf cw).code := by
  rw [opOf_eq_extract, unitOf_code, fnOf_code]

/-- A command word is put together from its own fields (R51). -/
theorem formatC_fields (cw : CmdWord) : formatC (unitOf cw) (fnOf cw) (dataOf cw) = cw := by
  rw [formatC, ← opOf_eq_codes]
  exact (BitVec.extractLsb'_append_extractLsb'_eq_extractLsb' rfl).trans (BitVec.extractLsb'_eq_self ..)

theorem dataOf_eq_setWidth (cw : CmdWord) : dataOf cw = BitVec.setWidth 64 cw := by
  conv_rhs => rw [← formatC_fields cw]
  exact (Laws.EncodedRow.setWidth_formatC ..).symm

/-- Under the mask a word keeps `unit` and `fn` alone (R55). -/
theorem and_rowMask (cw : CmdWord) : cw &&& rowMask = formatC (unitOf cw) (fnOf cw) 0#64 := by
  conv_lhs => rw [← formatC_fields cw]
  exact Laws.EncodedRow.formatC_and_mask ..

/-- A word has one `unit` and one `fn`. -/
theorem fields_eq_of_formatC_eq {u u' : UnitField} {f f' : FnField} {data data' : Word}
    (h : formatC u f data = formatC u' f' data') : (u, f) = (u', f') := by
  have hu := congrArg unitOf h
  have hf := congrArg fnOf h
  rw [unitOf_formatC, unitOf_formatC] at hu
  rw [fnOf_formatC, fnOf_formatC] at hf
  rw [hu, hf]

/-- Two words with the same `op` have the same `unit` and the same `fn`. -/
theorem fields_eq_of_opOf_eq {cw cw' : CmdWord} (h : opOf cw = opOf cw') :
    (unitOf cw, fnOf cw) = (unitOf cw', fnOf cw') := by
  rw [opOf_eq_codes, opOf_eq_codes] at h
  exact fields_eq_of_formatC_eq (congrArg (fun op => op ++ 0#64) h)

/-! ## The row of a command -/

/-- The `unit` and `fn` of a command's row of the opcode map (R55). -/
def Instr.row : Instr → UnitField × FnField
  | .sminit _ => (.sm, .seed)
  | .smnext => (.sm, .draw)
  | .sseed _ => (.sc, .seed)
  | .sdraw => (.sc, .draw)
  | .sjump => (.sc, .jump)
  | .vseed _ => (.v, .seed)
  | .vdraw => (.v, .draw)

theorem encode_eq_formatC (i : Instr) : encode i = formatC i.row.1 i.row.2 (i.operand.getD 0#64) := by
  cases i <;> rfl

/-- Every command's word lies in its row of the opcode map (R55). -/
theorem encodedRow (i : Instr) : Laws.EncodedRow.Statement i := by
  cases i with
  | sminit seed => exact Laws.EncodedRow.sminit seed
  | smnext => exact Laws.EncodedRow.smnext
  | sseed seed => exact Laws.EncodedRow.sseed seed
  | sdraw => exact Laws.EncodedRow.sdraw
  | sjump => exact Laws.EncodedRow.sjump
  | vseed seed => exact Laws.EncodedRow.vseed seed
  | vdraw => exact Laws.EncodedRow.vdraw

theorem rowMatch_eq_formatC (i : Instr) : rowMatch i = formatC i.row.1 i.row.2 0#64 := by
  obtain ⟨hmatch, -⟩ := encodedRow i
  rw [← hmatch, encode_eq_formatC, Laws.EncodedRow.formatC_and_mask]

/-- A seed command with another seed stands in the same row (R54). -/
theorem exists_same_row {i : Instr} {seed : Word} (h : i.operand = some seed) (seed' : Word) :
    ∃ i' : Instr, i'.row = i.row ∧ i'.operand = some seed' := by
  cases i with
  | sminit _ => exact ⟨.sminit seed', rfl, rfl⟩
  | sseed _ => exact ⟨.sseed seed', rfl, rfl⟩
  | vseed _ => exact ⟨.vseed seed', rfl, rfl⟩
  | smnext | sdraw | sjump | vdraw => cases h

/-! ## The decoder, said once -/

/-- A word decodes to the command in whose row its `unit` and `fn` stand, with its `data` as the seed where there is one
(R55, R65). -/
theorem decode_eq_command_iff {cw : CmdWord} {i : Instr} :
    decode cw = .command i ↔ i.row = (unitOf cw, fnOf cw) ∧ ∀ seed, i.operand = some seed → seed = dataOf cw := by
  constructor
  · intro h
    unfold decode at h
    split at h <;> cases h
    all_goals
      refine ⟨Prod.ext (Eq.symm ‹_›) (Eq.symm ‹_›), ?_⟩
      simp [Instr.operand]
  · rintro ⟨hrow, hseed⟩
    obtain ⟨hu, hf⟩ := Prod.mk.inj hrow
    unfold decode
    rw [← hu, ← hf]
    cases i with
    | sminit seed | sseed seed | vseed seed => rw [hseed seed rfl]
    | smnext | sdraw | sjump | vdraw => rfl

/-- The decoder is total (R65). -/
theorem decode_total (cw : CmdWord) : (∃ i, decode cw = .command i) ∨ decode cw = .invalid (opOf cw) := by
  unfold decode
  split <;> simp

/-- What is no command is `invalid`, under its own code (R56, R65). -/
theorem decode_eq_invalid_iff (cw : CmdWord) : decode cw = .invalid (opOf cw) ↔ ¬ ∃ i, decode cw = .command i := by
  refine ⟨?_, (decode_total cw).resolve_left⟩
  rintro h ⟨i, hi⟩
  cases h.symm.trans hi

/-- Which codes the map defines (R55). -/
theorem decode_command_iff_opOf_mem (cw : CmdWord) :
    (∃ i, decode cw = .command i) ↔ opOf cw ∈ [0x0#4, 0x1#4, 0x4#4, 0x5#4, 0x6#4, 0x8#4, 0x9#4] := by
  rw [opOf_eq_codes]
  unfold decode
  cases unitOf cw <;> cases fnOf cw <;> simp [UnitField.code, FnField.code]

/-- Which codes are reserved: the other nine (R56). -/
theorem decode_invalid_iff_opOf_mem (cw : CmdWord) :
    decode cw = .invalid (opOf cw) ↔
      opOf cw ∈ [0x2#4, 0x3#4, 0x7#4, 0xA#4, 0xB#4, 0xC#4, 0xD#4, 0xE#4, 0xF#4] := by
  have complement : ∀ op : OpCode, op ∉ [0x0#4, 0x1#4, 0x4#4, 0x5#4, 0x6#4, 0x8#4, 0x9#4] ↔
      op ∈ [0x2#4, 0x3#4, 0x7#4, 0xA#4, 0xB#4, 0xC#4, 0xD#4, 0xE#4, 0xF#4] := by decide
  rw [decode_eq_invalid_iff, decode_command_iff_opOf_mem, complement]

/-- Encoding what a word decodes to gives the word back, `data` cleared where it is no seed (R54, R65). -/
theorem encode_of_decode {cw : CmdWord} {i : Instr} (h : decode cw = .command i) :
    encode i = if i.operand.isSome then cw else cw &&& rowMask := by
  obtain ⟨hrow, hseed⟩ := decode_eq_command_iff.mp h
  rw [encode_eq_formatC, hrow]
  cases hop : i.operand with
  | some seed => rw [hseed seed hop]; exact formatC_fields cw
  | none => exact (and_rowMask cw).symm

/-- The row of a command is the one whose `match` a word has under the mask (R55). -/
theorem row_eq_fields_iff (cw : CmdWord) (i : Instr) :
    i.row = (unitOf cw, fnOf cw) ↔ cw &&& rowMask = rowMatch i := by
  rw [and_rowMask, rowMatch_eq_formatC]
  refine ⟨fun h => ?_, fun h => (fields_eq_of_formatC_eq h).symm⟩
  rw [h]

/-! ## The obligations -/

/-- Settles O1: the seven and the nine codes are read off the decoder's fields, and a command's word is put together
from its row and its seed. -/
theorem decoderAndEncoderAreInverse : Obligations.DecoderAndEncoderAreInverse := by
  unfold Obligations.DecoderAndEncoderAreInverse
  exact ⟨decode_command_iff_opOf_mem, decode_invalid_iff_opOf_mem, fun i _ => decode_encode i,
    fun _ _ h => encode_of_decode h⟩

/-- Settles O2: the row is the one the word matches under the mask, and the seed is the word's `data`. -/
theorem opcodeMapSelectsByMaskAndMatch : Obligations.OpcodeMapSelectsByMaskAndMatch := by
  unfold Obligations.OpcodeMapSelectsByMaskAndMatch
  intro cw i
  rw [decode_eq_command_iff, row_eq_fields_iff, dataOf_eq_setWidth]
  rfl

/-- Settles O3: the two words have the same row, and only their `data` can tell them apart. -/
theorem dataFieldIsTheSeedOrIgnored : Obligations.DataFieldIsTheSeedOrIgnored := by
  unfold Obligations.DataFieldIsTheSeedOrIgnored
  intro cw cw' i hop hdec
  obtain ⟨hrow, -⟩ := decode_eq_command_iff.mp hdec
  rw [fields_eq_of_opOf_eq hop] at hrow
  refine ⟨fun hnone => decode_eq_command_iff.mpr ⟨hrow, by simp [hnone]⟩, fun seed hseed => ?_⟩
  obtain ⟨i', hrow', hop'⟩ := exists_same_row hseed (dataOf cw')
  refine ⟨i', decode_eq_command_iff.mpr ⟨hrow'.trans hrow, by simp [hop']⟩, ?_, ?_⟩
  · rw [rowMatch_eq_formatC, rowMatch_eq_formatC, hrow']
  · rw [hop', dataOf_eq_setWidth]

/-- Settles O4: the nine words, each run through the decoder. -/
theorem wordsOfTheSpecDecode : Obligations.WordsOfTheSpecDecode := by
  unfold Obligations.WordsOfTheSpecDecode
  decide

end Sys2Proof
end

section
/-! PROOFS. What a step does with each event at the port (30_encoding.md R50, R56; 20_memory.md R45;
70_reset_and_hazards.md R140, R141). -/

namespace Sys2Proof.Machine

/-- Settles O5: the step hands the word to the port, which runs what it decodes to. -/
theorem stepRunsThePresentedCommand : Obligations.StepRunsThePresentedCommand := by
  unfold Obligations.StepRunsThePresentedCommand
  intro s cw rest i hin hdec
  exact (step_cons hin).trans (acceptCommand_of_decode hdec _)

/-- Settles O8: with nothing presented the step idles. -/
theorem idleStepChangesNothing : Obligations.IdleStepChangesNothing := by
  unfold Obligations.IdleStepChangesNothing
  exact fun s h => step_nil h

theorem acceptCommand_of_invalid {cw : CmdWord} {op : OpCode} (h : decode cw = .invalid op) (s : State) :
    acceptCommand cw s = .refused (.reservedCode op) := by
  unfold acceptCommand; rw [h]

/-- Settles O9: a reserved code decodes to `invalid`, which the port refuses by name. -/
theorem reservedCodesAreRefused : Obligations.ReservedCodesAreRefused := by
  unfold Obligations.ReservedCodesAreRefused
  intro cw hop
  have hdec := (decode_invalid_iff_opOf_mem cw).mpr hop
  exact ⟨hdec, fun s rest hin => (step_cons hin).trans (acceptCommand_of_invalid hdec _)⟩

/-! ## A list of commands -/

/-- A list of commands at the port is its first command and then the rest of the list. -/
theorem State.presentAll_cons (s : State) (i : Instr) (is : List Instr) :
    s.presentAll (i :: is) = (s.presentAll is).present (encode i) := rfl

/-- A command's end leaves what waits at the port. -/
theorem State.presentAll_respond (s : State) (is : List Instr) (r : Registers) (c : Completion) :
    (s.presentAll is).respond r c = (s.respond r c).presentAll is := rfl

/-- As many steps as there are commands at the port run them one after another (20_memory.md R45). -/
theorem run_presentAll (is : List Instr) (s : State) : run is.length (s.presentAll is) = execAll is s := by
  induction is generalizing s with
  | nil => rfl
  | cons i is ih =>
    have hstep := (step_present_encode (s.presentAll is) i).trans (exec_eq_respond i _)
    rw [State.presentAll_cons, List.length_cons, run_succ_of_next hstep, State.presentAll_respond, ih, execAll_cons]
    rfl

/-- Two commands, one after the other. -/
theorem execAll_pair (i j : Instr) (s : State) :
    execAll [i, j] s = .next ⟨(s.regs.afterCommand i).afterCommand j, s.inputs,
      s.sent ++ [s.regs.completionOf i, (s.regs.afterCommand i).completionOf j]⟩ := by
  rw [execAll_cons, execAll_cons, execAll_nil, State.respond_eq, State.respond_eq, List.append_assoc]
  rfl

/-- A list of commands completes, with one completion each, in their order (20_memory.md R45). -/
theorem execAll_transcript (is : List Instr) (s : State) :
    ∃ t, execAll is s = .next t ∧ t.inputs = s.inputs ∧
      (transcript is s).map (·.1) = is ∧ t.sent = s.sent ++ (transcript is s).map (·.2) := by
  induction is generalizing s with
  | nil => exact ⟨s, rfl, rfl, rfl, (List.append_nil _).symm⟩
  | cons i is ih =>
    obtain ⟨t, hexec, hin, hcmds, hsent⟩ := ih (s.respond (s.regs.afterCommand i) (s.regs.completionOf i))
    rw [transcript_cons]
    refine ⟨t, (execAll_cons i is s).trans hexec, hin, congrArg (i :: ·) hcmds, ?_⟩
    rw [hsent, State.respond_sent, List.append_assoc]
    rfl

/-- Settles O7: steps over the presented list are the commands in turn, and each adds its own completion. -/
theorem commandsRunInTheOrderPresented : Obligations.CommandsRunInTheOrderPresented := by
  unfold Obligations.CommandsRunInTheOrderPresented
  exact fun is s => ⟨run_presentAll is s, execAll_transcript is s⟩

end Sys2Proof.Machine
end

section
/-! PROOFS. What every step but a reset keeps: live generators and a valid buffer (41_scalar_engine.md R91;
42_vector_engine.md R111; 10_state.md R30). -/

namespace Sys2Proof.Machine

/-- What every command keeps of the registers, every step but a reset keeps. -/
theorem step_keeps {P : Registers → Prop} (keeps : ∀ {r}, P r → ∀ i, P (r.afterCommand i)) {s t : State}
    (hreset : s.resetNext = false) (hstep : step s = .next t) (h : P s.regs) : P t.regs := by
  obtain ⟨-, rfl⟩ | ⟨cw, rest, i, -, -, rfl⟩ | ⟨abandoned, after, rest, hin, -, -⟩ := step_cases hstep
  · exact h
  · exact keeps h i
  · simp [State.resetNext, hin] at hreset

/-- Settles O44: no command makes a live scalar engine or a live lane array degenerate. -/
theorem stepsKeepGeneratorsLive : Obligations.StepsKeepGeneratorsLive := by
  unfold Obligations.StepsKeepGeneratorsLive
  exact fun s t hreset hstep =>
    ⟨step_keeps Registers.scalarLive_afterCommand hreset hstep, step_keeps Registers.lanesLive_afterCommand hreset hstep⟩

section Buffer
variable {r : Registers}

/-- The buffer's validity is about the cursor, the lanes and the buffer alone. -/
theorem Registers.bufferValid_congr {r' : Registers} (h : r.bufferValid) (hcur : r'.vcur = r.vcur)
    (hlane : ∀ k, r'.lane k = r.lane k) (hbuf : r'.vbuf = r.vbuf) : r'.bufferValid := by
  simpa only [Registers.bufferValid, hcur, hlane, hbuf] using h

/-- An empty buffer has no slot to be wrong about. -/
theorem Registers.seedVector_bufferValid (r : Registers) (seed : Word) : (r.seedVector seed).bufferValid := by
  intro k hk
  simp at hk

/-- A refill puts in each slot the word of the state its lane had before; another VDRAW only gives up a slot (R104). -/
theorem Registers.bufferValid_drawVector (h : r.bufferValid) : r.drawVector.2.bufferValid := by
  by_cases hc : r.vcur = 0#2
  · rw [Registers.drawVector_empty hc]
    exact fun k _ => ⟨r.lane k, (r.refill_lane k).symm, (r.refill_vbuf_get k).symm⟩
  · rw [Registers.drawVector_holds hc]
    intro k hk
    have hdown : (r.vcur - 1#2).toNat ≤ r.vcur.toNat := by bv_omega
    exact h k (lt_of_lt_of_le hk hdown)

/-- VSEED and VDRAW are the commands that write the cursor, the lanes or the buffer. -/
theorem Registers.bufferValid_afterCommand (h : r.bufferValid) (i : Instr) : (r.afterCommand i).bufferValid := by
  cases i with
  | sminit seed => exact h
  | smnext => exact bufferValid_congr h r.smNext_vcur r.smNext_lane r.smNext_vbuf
  | sseed seed =>
    exact bufferValid_congr h (r.seedScalar_vcur seed) (r.seedScalar_lane seed) (r.seedScalar_vbuf seed)
  | sdraw => exact bufferValid_congr h r.drawScalar_vcur r.drawScalar_lane r.drawScalar_vbuf
  | sjump => exact bufferValid_congr h r.jumpScalar_vcur r.jumpScalar_lane r.jumpScalar_vbuf
  | vseed seed => exact r.seedVector_bufferValid seed
  | vdraw => exact bufferValid_drawVector h

end Buffer

/-- Settles O45: VSEED empties the buffer, and every command keeps it valid. -/
theorem stepsKeepTheBufferValid : Obligations.StepsKeepTheBufferValid := by
  unfold Obligations.StepsKeepTheBufferValid
  exact ⟨fun seed s => ⟨_, exec_eq_respond _ s, s.regs.seedVector_bufferValid seed⟩,
    fun s t hreset hvalid hstep => step_keeps Registers.bufferValid_afterCommand hreset hstep hvalid⟩

end Sys2Proof.Machine
end

section
/-! PROOFS. What a reset leaves unspecified stays out of a seeded stream (70_reset_and_hazards.md R140, R141, R143,
R151). -/

namespace Sys2Proof.Machine

/-! ## Resets -/

theorem defined_reset_of_decode {cw : CmdWord} {i : Instr} (h : decode cw = .command i) (after : Registers) :
    (HostEvent.reset (some cw) after).defined = true := by
  simp only [HostEvent.defined, Option.map_some, h]

/-- Settles O11: a reset while idle and one during a defined command are both defined, so they leave what they carry. -/
theorem resetReplacesEveryRegister : Obligations.ResetReplacesEveryRegister := by
  unfold Obligations.ResetReplacesEveryRegister
  rintro ⟨regs, inputs, sent⟩ after rest
  refine ⟨?_, fun cw i hdec => ?_⟩
  · rintro rfl
    exact step_reset rfl regs rest sent
  · rintro rfl
    exact step_reset (defined_reset_of_decode hdec after) regs rest sent

/-! ## The counter, by what a command does to it -/

/-- SSEED leaves the counter two advances on from the seed (41_scalar_engine.md R83). -/
@[simp] theorem Registers.seedScalar_smx (r : Registers) (seed : Word) :
    (r.seedScalar seed).smx = seed + BitVec.ofNat 64 2 * Config.smGamma := by
  have once : seed + Config.smGamma = seed + BitVec.ofNat 64 1 * Config.smGamma := by rw [BitVec.one_mul]
  rw [r.seedScalar_eq once (add_ofNat_mul_add seed Config.smGamma 1) rfl rfl]

/-- VSEED leaves the counter eight advances on from the seed (42_vector_engine.md R103). -/
@[simp] theorem Registers.seedVector_smx (r : Registers) (seed : Word) :
    (r.seedVector seed).smx = seed + BitVec.ofNat 64 8 * Config.smGamma := by
  rw [r.seedVector_eq_expanderWords]

/-! ## Two register contents under one command -/

/-- Two register contents agree on the vector engine: cursor, lanes and the slots not yet returned. -/
def Registers.sameVector (r r' : Registers) : Prop :=
  r.vcur = r'.vcur ∧ (∀ k : Fin 4, r.lane k = r'.lane k) ∧
    ∀ k : Fin 4, k.val < r.vcur.toNat → r.vbuf.get k = r'.vbuf.get k

section TwoContents
variable {r r' : Registers}

theorem Registers.sameVector_congr {q q' : Registers} (h : r.sameVector r')
    (hcur : q.vcur = r.vcur) (hlane : ∀ k, q.lane k = r.lane k) (hbuf : q.vbuf = r.vbuf)
    (hcur' : q'.vcur = r'.vcur) (hlane' : ∀ k, q'.lane k = r'.lane k) (hbuf' : q'.vbuf = r'.vbuf) :
    q.sameVector q' := by
  simpa only [Registers.sameVector, hcur, hlane, hbuf, hcur', hlane', hbuf'] using h

theorem Registers.seedVector_sameVector (seed : Word) : (r.seedVector seed).sameVector (r'.seedVector seed) := by
  refine ⟨?_, fun k => ?_, fun k hk => ?_⟩
  · rw [r.seedVector_vcur, r'.seedVector_vcur]
  · rw [r.seedVector_lane, r'.seedVector_lane]
  · simp at hk

/-- VDRAW from two that agree on the vector engine returns the same word and leaves two that agree (R104). -/
theorem Registers.drawVector_sameVector (h : r.sameVector r') :
    r.drawVector.1 = r'.drawVector.1 ∧ r.drawVector.2.sameVector r'.drawVector.2 := by
  obtain ⟨hcur, hlane, hbuf⟩ := h
  by_cases hc : r.vcur = 0#2
  · rw [Registers.drawVector_empty hc, Registers.drawVector_empty (hcur ▸ hc), hlane 3]
    refine ⟨rfl, rfl, fun k => ?_, fun k _ => ?_⟩
    · exact (r.refill_lane k).trans ((congrArg genStep (hlane k)).trans (r'.refill_lane k).symm)
    · exact (r.refill_vbuf_get k).trans ((congrArg genResult (hlane k)).trans (r'.refill_vbuf_get k).symm)
  · rw [Registers.drawVector_holds hc, Registers.drawVector_holds (hcur ▸ hc), ← hcur]
    have hdown : (r.vcur - 1#2).toNat < r.vcur.toNat := by bv_omega
    have hslot : (Fin.ofNat 4 (r.vcur - 1#2).toNat).val < r.vcur.toNat := lt_of_le_of_lt (Nat.mod_le ..) hdown
    exact ⟨hbuf _ hslot, rfl, hlane, fun k hk => hbuf k (lt_trans hk hdown)⟩

end TwoContents

section Agreement
variable {b : Seeded} {r r' : Registers} {i : Instr}

/-- Each seed command sets the counter, and SMNEXT advances it (R143). -/
theorem Seeded.smx_afterCommand (h : b.expander = true → r.smx = r'.smx) (hb : (b.after i).expander = true) :
    (r.afterCommand i).smx = (r'.afterCommand i).smx := by
  cases i with
  | sminit seed => rfl
  | smnext => rw [Registers.afterCommand_smnext, Registers.afterCommand_smnext, r.smNext_smx, r'.smNext_smx, h hb]
  | sseed seed => rw [Registers.afterCommand_sseed, Registers.afterCommand_sseed, r.seedScalar_smx, r'.seedScalar_smx]
  | sdraw => exact h hb
  | sjump => simpa using h hb
  | vseed seed => rw [Registers.afterCommand_vseed, Registers.afterCommand_vseed, r.seedVector_smx, r'.seedVector_smx]
  | vdraw => rw [Registers.afterCommand_vdraw, Registers.afterCommand_vdraw, r.drawVector_smx, r'.drawVector_smx, h hb]

/-- SSEED sets the scalar engine; SDRAW and SJUMP take it to a function of what it was (R143). -/
theorem Seeded.scalar_afterCommand (h : b.scalar = true → r.scalar = r'.scalar) (hb : (b.after i).scalar = true) :
    (r.afterCommand i).scalar = (r'.afterCommand i).scalar := by
  cases i with
  | sminit seed => exact h hb
  | smnext => simpa using h hb
  | sseed seed => simp
  | sdraw =>
    rw [Registers.afterCommand_sdraw, Registers.afterCommand_sdraw, Registers.drawScalar_eq, Registers.drawScalar_eq,
      Registers.setScalar_scalar, Registers.setScalar_scalar, h hb]
  | sjump =>
    rw [Registers.afterCommand_sjump, Registers.afterCommand_sjump, Registers.jumpScalar_eq, Registers.jumpScalar_eq,
      Registers.setScalar_scalar, Registers.setScalar_scalar, h hb]
  | vseed seed => simpa using h hb
  | vdraw => simpa only [Registers.afterCommand_vdraw, Registers.drawVector_scalar] using h hb

/-- VSEED sets the vector engine, and VDRAW keeps two of them together (R143). -/
theorem Seeded.vector_afterCommand (h : b.vector = true → r.sameVector r') (hb : (b.after i).vector = true) :
    (r.afterCommand i).sameVector (r'.afterCommand i) := by
  cases i with
  | sminit seed => exact h hb
  | smnext =>
    exact Registers.sameVector_congr (h hb) r.smNext_vcur r.smNext_lane r.smNext_vbuf r'.smNext_vcur r'.smNext_lane
      r'.smNext_vbuf
  | sseed seed =>
    exact Registers.sameVector_congr (h hb) (r.seedScalar_vcur seed) (r.seedScalar_lane seed) (r.seedScalar_vbuf seed)
      (r'.seedScalar_vcur seed) (r'.seedScalar_lane seed) (r'.seedScalar_vbuf seed)
  | sdraw =>
    exact Registers.sameVector_congr (h hb) r.drawScalar_vcur r.drawScalar_lane r.drawScalar_vbuf r'.drawScalar_vcur
      r'.drawScalar_lane r'.drawScalar_vbuf
  | sjump =>
    exact Registers.sameVector_congr (h hb) r.jumpScalar_vcur r.jumpScalar_lane r.jumpScalar_vbuf r'.jumpScalar_vcur
      r'.jumpScalar_lane r'.jumpScalar_vbuf
  | vseed seed => exact Registers.seedVector_sameVector seed
  | vdraw => exact (Registers.drawVector_sameVector (h hb)).2

theorem Seeded.agree_iff : b.agree r r' ↔ (b.expander = true → r.smx = r'.smx) ∧
    (b.scalar = true → r.scalar = r'.scalar) ∧ (b.vector = true → r.sameVector r') := Iff.rfl

theorem Seeded.agree_afterCommand (h : b.agree r r') (i : Instr) :
    (b.after i).agree (r.afterCommand i) (r'.afterCommand i) := by
  obtain ⟨hx, hs, hv⟩ := Seeded.agree_iff.mp h
  exact Seeded.agree_iff.mpr ⟨Seeded.smx_afterCommand hx, Seeded.scalar_afterCommand hs, Seeded.vector_afterCommand hv⟩

/-- A command the boot rule allows answers alike where the seeded units agree: its word is of its own unit (R143). -/
theorem Seeded.completionOf_eq (h : b.agree r r') (hallow : b.allows i = true) :
    r.completionOf i = r'.completionOf i := by
  obtain ⟨hx, hs, hv⟩ := Seeded.agree_iff.mp h
  cases i with
  | sminit _ | sseed _ | sjump | vseed _ => rfl
  | smnext =>
    rw [Registers.completionOf_smnext, Registers.completionOf_smnext, r.smNext_word, r'.smNext_word, hx hallow]
  | sdraw => exact congrArg (fun g => Completion.word (genResult g)) (hs hallow)
  | vdraw => exact congrArg Completion.word (Registers.drawVector_sameVector (hv hallow)).1

/-- Nothing seeded, nothing to agree on (R141). -/
theorem Seeded.nothing_agree (r r' : Registers) : Seeded.nothing.agree r r' :=
  ⟨(nomatch ·), (nomatch ·), (nomatch ·)⟩

/-- An event the host may let happen is answered alike from two contents that agree, and leaves two that agree. -/
theorem Seeded.agree_step {b' : Seeded} {e : HostEvent} (h : b.agree r r') (he : b.afterEvent e = some b')
    (rest : List HostEvent) (sent : List Completion) :
    ∃ q q' sent', step ⟨r, e :: rest, sent⟩ = .next ⟨q, rest, sent'⟩ ∧
      step ⟨r', e :: rest, sent⟩ = .next ⟨q', rest, sent'⟩ ∧ b'.agree q q' := by
  obtain ⟨cw, i, rfl, hdec, hallow, rfl⟩ | ⟨abandoned, after, rfl, hdef, rfl⟩ := Seeded.afterEvent_cases he
  · refine ⟨_, _, _, step_command hdec r rest sent, ?_, Seeded.agree_afterCommand h i⟩
    rw [step_command hdec, Seeded.completionOf_eq h hallow]
  · exact ⟨_, _, _, step_reset hdef r rest sent, step_reset hdef r' rest sent, Seeded.nothing_agree after after⟩

end Agreement

/-- Settles O51: with nothing seeded there is nothing to agree on, and an allowed event keeps the agreement. -/
theorem stepsKeepSeededAgreement : Obligations.StepsKeepSeededAgreement := by
  unfold Obligations.StepsKeepSeededAgreement
  refine ⟨Seeded.nothing_agree, fun b b' r r' e rest sent hagree he => ?_⟩
  obtain ⟨q, q', sent', hstep, hstep', hagree'⟩ := Seeded.agree_step hagree he rest sent
  exact ⟨_, _, hstep, hstep', hagree', rfl, rfl, rfl⟩

/-! ## Runs -/

/-- A run with nothing at the port changes nothing. -/
theorem run_of_inputs_nil {s : State} (h : s.inputs = []) (k : Nat) : run k s = .next s := by
  induction k with
  | zero => rfl
  | succ k ih => rw [run_succ_of_next (step_nil h), ih]

/-- Two runs of one host that keeps to the spec, from contents that agree on what is seeded, deliver the same. -/
theorem Seeded.agree_run {b : Seeded} {r r' : Registers} {inputs : List HostEvent} (k : Nat) (h : b.agree r r')
    (hkeeps : hostKeepsTo b inputs = true) (sent : List Completion) :
    ∃ t t', run k ⟨r, inputs, sent⟩ = .next t ∧ run k ⟨r', inputs, sent⟩ = .next t' ∧
      t.sent = t'.sent ∧ t.inputs = t'.inputs := by
  induction k generalizing b r r' inputs sent with
  | zero => exact ⟨_, _, rfl, rfl, rfl, rfl⟩
  | succ k ih =>
    cases inputs with
    | nil => exact ⟨_, _, run_of_inputs_nil rfl _, run_of_inputs_nil rfl _, rfl, rfl⟩
    | cons e rest =>
      obtain ⟨b', he, hrest⟩ := (hostKeepsTo_cons b e rest).mp hkeeps
      obtain ⟨q, q', sent', hstep, hstep', hagree⟩ := Seeded.agree_step h he rest sent
      rw [run_succ_of_next hstep, run_succ_of_next hstep']
      exact ih hagree hrest sent'

/-- Settles O48: from a reset on, the agreement on what is seeded goes from event to event. -/
theorem seededRunsDoNotDependOnReset : Obligations.SeededRunsDoNotDependOnReset := by
  unfold Obligations.SeededRunsDoNotDependOnReset
  exact fun r r' inputs sent k hkeeps => Seeded.agree_run k (Seeded.nothing_agree r r') hkeeps sent

end Sys2Proof.Machine
end

section
/-! PROOFS. The word operators (00_scope.md R11 to R16). -/

namespace Sys2Proof.Machine

/-- There are finitely many words, so what is injective on them is a bijection. -/
theorem Word.bijective_of_injective {f : Word → Word} (h : Function.Injective f) : Function.Bijective f :=
  have : Finite Word := Finite.of_injective BitVec.toFin fun _ _ => BitVec.eq_of_toFin_eq
  Finite.injective_iff_bijective.mp h

/-- Settles O14: the operators are the library's on words, and the two maps are injective on finitely many words. -/
theorem wordOperatorsAreModular : Obligations.WordOperatorsAreModular := by
  unfold Obligations.WordOperatorsAreModular
  refine ⟨fun a b => ⟨BitVec.toNat_add a b, BitVec.toNat_mul a b, fun i => BitVec.getLsbD_xor⟩, fun a k _ _ => ⟨?_, ?_⟩,
    fun c hc => ⟨?_, zero_mulWord c⟩, fun k h0 _ => ⟨?_, xorShiftRight_zero k⟩⟩
  · rw [shlWord, BitVec.toNat_shiftLeft, Nat.shiftLeft_eq]
  · rw [shrWord, BitVec.toNat_ushiftRight, Nat.shiftRight_eq_div_pow]
  · exact Word.bijective_of_injective (mulWord_injective (Nat.odd_iff.mpr hc))
  · exact Word.bijective_of_injective (xorShiftRight_injective h0)

/-- Rotation takes bit i to bit (i + k) mod 64: below the wrap i + k, beyond it i + k - 64 (R16). -/
theorem getLsbD_rotateLeft_add_mod (a : Word) {k i : Nat} (hk : k < 64) (hi : i < 64) :
    (a.rotateLeft k).getLsbD ((i + k) % 64) = a.getLsbD i := by
  rw [BitVec.getLsbD_rotateLeft, Nat.mod_eq_of_lt hk]
  by_cases hwrap : i + k < 64
  · rw [Nat.mod_eq_of_lt hwrap, decide_eq_false (by omega), decide_eq_true hwrap, Nat.add_sub_cancel]
    rfl
  · rw [show (i + k) % 64 = i + k - 64 by omega, decide_eq_true (by omega), show 64 - k + (i + k - 64) = i by omega]
    rfl

theorem rotateLeft_allOnes (k : Nat) : (BitVec.allOnes 64).rotateLeft k = BitVec.allOnes 64 := by
  ext i hi
  simp only [BitVec.getElem_rotateLeft, BitVec.getElem_allOnes, dite_eq_ite, ite_self]

theorem rotateLeft_zero_word (k : Nat) : (0#64).rotateLeft k = 0#64 := by
  ext i hi
  simp only [BitVec.getElem_rotateLeft, BitVec.getElem_zero, dite_eq_ite, ite_self]

/-- Settles O15: the model's rotation is the library's, whose bits move as R16 says. -/
theorem rotateLeftMovesEveryBit : Obligations.RotateLeftMovesEveryBit := by
  unfold Obligations.RotateLeftMovesEveryBit
  refine ⟨fun a k i _ hk hi => ?_, by decide, by decide, fun k h0 hk => ?_⟩
  · rw [rotl_eq_rotateLeft hk, getLsbD_rotateLeft_add_mod a hk hi]
  · have hrot : (fun a => rotl a k) = fun a : Word => a.rotateLeft k := funext fun a => rotl_eq_rotateLeft hk a
    refine ⟨hrot ▸ Word.bijective_of_injective (rotateLeft_injective h0 hk), ?_, ?_, fun a b => ?_⟩
    · rw [rotl_eq_rotateLeft hk, rotateLeft_zero_word]
    · rw [rotl_eq_rotateLeft hk, rotateLeft_allOnes]
    · rw [rotl_eq_rotateLeft hk, rotl_eq_rotateLeft hk, rotl_eq_rotateLeft hk, rotateLeft_xor]

end Sys2Proof.Machine
end

section
/-! PROOFS. The seed expander's sequence (40_seed_expander.md R71, R74 to R76; 10_state.md R35). -/

namespace Sys2Proof.Machine

/-- Settles O17: the model's operators are the library's, step by step. -/
theorem mix64IsTheTwoRoundMixer : Obligations.Mix64IsTheTwoRoundMixer := by
  unfold Obligations.Mix64IsTheTwoRoundMixer
  exact fun z => rfl

/-- From any place in a sequence, the word a given number of draws on is injective in that number, as a word: adding,
multiplying by the odd SM_GAMMA and mixing are (R75). -/
theorem expanderWord_add_toNat_injective (s : Word) (m : Nat) :
    Function.Injective fun j : Word => expanderWord s (m + j.toNat) := by
  intro i j h
  replace h := mix64_injective h
  rw [add_ofNat_add_mul, add_ofNat_add_mul, BitVec.add_right_inj, BitVec.ofNat_toNat, BitVec.ofNat_toNat,
    BitVec.setWidth_eq, BitVec.setWidth_eq] at h
  exact mulWord_injective (by decide) h

theorem expanderWord_ne_of_lt (s : Word) {m n : Nat} (h : m < n) (hd : n - m < 2 ^ 64) :
    expanderWord s m ≠ expanderWord s n := by
  intro he
  rw [← Nat.add_sub_cancel' h.le] at he
  exact Nat.not_dvd_of_pos_of_lt (Nat.sub_pos_of_lt h) hd ((expanderWord_add_eq_iff s m (n - m)).mp he.symm)

/-- 2^64 draws in a row meet every word once (R75). -/
theorem existsUnique_expanderWord_add (s w : Word) (m : Nat) :
    ∃! j : Nat, j < 2 ^ 64 ∧ expanderWord s (m + j) = w := by
  have hinj := expanderWord_add_toNat_injective s m
  obtain ⟨x, hx⟩ := (Word.bijective_of_injective hinj).surjective w
  refine ⟨x.toNat, ⟨x.isLt, hx⟩, fun j ⟨hj, hw⟩ => ?_⟩
  have hxj : BitVec.ofNat 64 j = x := by
    refine hinj (Eq.trans ?_ hx.symm)
    change expanderWord s (m + (BitVec.ofNat 64 j).toNat) = w
    rw [← hw, BitVec.toNat_ofNat, Nat.mod_eq_of_lt hj]
  rw [← hxj, BitVec.toNat_ofNat, Nat.mod_eq_of_lt hj]

/-- Settles O19: the five steps of the mixer are injective on finitely many words, and so is a walk along a sequence. -/
theorem mix64IsABijectionFixingZero : Obligations.Mix64IsABijectionFixingZero := by
  unfold Obligations.Mix64IsABijectionFixingZero
  exact ⟨fun sh1 sh2 sh3 h1 _ h2 _ h3 _ =>
      ⟨Word.bijective_of_injective (mix64With_injective h1 h2 h3), mix64With_zero sh1 sh2 sh3⟩,
    fun s _ _ h hd => expanderWord_ne_of_lt s h hd, fun s m => existsUnique_expanderWord_add s 0#64 m⟩

/-- Settles O20: SMINIT loads the counter, whose sequence the draws then walk along. -/
theorem expanderSequenceDependsOnTheSeedOnly : Obligations.ExpanderSequenceDependsOnTheSeedOnly := by
  unfold Obligations.ExpanderSequenceDependsOnTheSeedOnly
  intro seed n s
  rw [execAll_cons, execAll_replicate_smnext]
  refine ⟨_, rfl, ?_, ?_⟩
  · rw [State.respond_regs, Registers.afterCommand_sminit, Registers.smLoad_smLoad, Registers.smLoad_smx]
    rfl
  · rw [State.respond_sent, State.respond_regs, Registers.afterCommand_sminit, Registers.smLoad_smx, List.append_assoc]
    rfl

/-- SMNEXT with the counter n advances on from a seed answers word n + 1 of the seed's sequence (R74). -/
theorem Registers.completionOf_smnext_of_smx {r : Registers} {seed : Word} {n : Nat}
    (h : r.smx = seed + BitVec.ofNat 64 n * Config.smGamma) :
    r.completionOf .smnext = .word (expanderWord seed (n + 1)) := by
  rw [Registers.completionOf_smnext, Registers.smNext_word, h, add_ofNat_mul_add, expanderWord]

/-- Settles O21: the seed commands leave the counter two and eight advances on. -/
theorem seedCommandsLeaveTheExpanderAdvanced : Obligations.SeedCommandsLeaveTheExpanderAdvanced := by
  unfold Obligations.SeedCommandsLeaveTheExpanderAdvanced
  intro seed s
  refine ⟨⟨_, execAll_pair _ _ s, ?_⟩, ⟨_, execAll_pair _ _ s, ?_⟩⟩
  · rw [Registers.afterCommand_sseed, Registers.completionOf_smnext_of_smx (s.regs.seedScalar_smx seed),
      Registers.completionOf_sseed]
  · rw [Registers.afterCommand_vseed, Registers.completionOf_smnext_of_smx (s.regs.seedVector_smx seed),
      Registers.completionOf_vseed]

end Sys2Proof.Machine
end

section
/-! PROOFS. The scalar engine's commands (41_scalar_engine.md R81 to R90). -/

namespace Sys2Proof.Machine

/-! ## SSEED -/

/-- Settles O22: the two draws of SSEED, counter value by counter value. -/
theorem sseedLoadsTwoExpanderWords : Obligations.SseedLoadsTwoExpanderWords := by
  unfold Obligations.SseedLoadsTwoExpanderWords
  intro seed s
  have advance : seed + Config.smGamma + Config.smGamma = seed + 2#64 * Config.smGamma := by
    rw [← add_ofNat_mul_add seed Config.smGamma 1, BitVec.one_mul]
  rw [exec_eq_respond, Registers.afterCommand_sseed, Registers.completionOf_sseed,
    s.regs.seedScalar_eq rfl advance rfl rfl, State.respond_eq]

/-- Settles O32: the two words SSEED loads are different, so not both 0. -/
theorem sseedLeavesALiveState : Obligations.SseedLeavesALiveState := by
  unfold Obligations.SseedLeavesALiveState
  exact fun seed s => ⟨_, exec_eq_respond _ s, s.regs.seedScalar_scalarLive seed⟩

/-! ## The generator's step -/

/-- The state R81 gives steps to `(a2, b2)`. -/
theorem genStep_inverse (a2 b2 : Word) :
    let t := b2.rotateLeft 27
    let a := (a2 ^^^ t ^^^ (t <<< 16)).rotateLeft 40
    genStep (a, t ^^^ a) = (a2, b2) := by
  intro t a
  have hsum : (t ^^^ a) ^^^ a = t := by rw [BitVec.xor_assoc, BitVec.xor_self, BitVec.xor_zero]
  have ha : a.rotateLeft 24 = a2 ^^^ t ^^^ (t <<< 16) :=
    rotateLeft_rotateLeft (j := 40) (k := 24) (by decide) (by decide) rfl _
  have ht : t.rotateLeft 37 = b2 := rotateLeft_rotateLeft (j := 27) (k := 37) (by decide) (by decide) rfl _
  have hcancel : a2 ^^^ t ^^^ t <<< 16 ^^^ t ^^^ t <<< 16 = a2 := by
    rw [BitVec.xor_assoc (a2 ^^^ t), BitVec.xor_comm (t <<< 16), ← BitVec.xor_assoc, BitVec.xor_assoc a2,
      BitVec.xor_self, BitVec.xor_zero, BitVec.xor_assoc, BitVec.xor_self, BitVec.xor_zero]
  rw [genStep_eq, hsum, ha, ht, hcancel]

theorem genStep_bijective : Function.Bijective genStep :=
  ⟨genStep_injective, fun g => ⟨_, genStep_inverse g.1 g.2⟩⟩

/-- Settles O26: linearity, and R81's inverse, which makes the injective step a bijection. -/
theorem generatorStepIsLinearAndInvertible : Obligations.GeneratorStepIsLinearAndInvertible := by
  unfold Obligations.GeneratorStepIsLinearAndInvertible
  exact ⟨genStep_xor, genStep_bijective, genStep_inverse⟩

/-! ## SJUMP -/

/-- SJUMP with its new state by name (R85). -/
theorem exec_sjump (s : State) : exec .sjump s = .next (s.respond (s.regs.setScalar (jump s.regs.scalar)) .done) := by
  rw [exec_eq_respond, Registers.afterCommand_sjump, Registers.completionOf_sjump, Registers.jumpScalar_eq]

/-- The scan of R85 over n coefficients is the sum, over those that are set, of the states as many steps on. -/
theorem foldl_range_eq_jumpLoop (c : Nat → Bool) (n : Nat) (g : GenState) :
    (List.range n).foldl (fun acc j => if c j then GenState.xor acc (genStep^[j] g) else acc) zeroState =
      jumpLoop ((List.range n).map c) zeroState g := by
  induction n with
  | zero => rfl
  | succ n ih =>
    rw [List.range_succ, List.foldl_append, ih, List.map_append, List.map_singleton, jumpLoop_concat, List.length_map,
      List.length_range, List.foldl_cons, List.foldl_nil]
    cases c n with
    | false => exact (GenState.xor_zeroState _).symm
    | true => rfl

/-- Settles O24: the accumulator of the scan, coefficient by coefficient. -/
theorem sjumpSumsTheStatesAtSetBits : Obligations.SjumpSumsTheStatesAtSetBits := by
  unfold Obligations.SjumpSumsTheStatesAtSetBits
  intro s
  rw [foldl_range_eq_jumpLoop, exec_sjump, jump, jumpWith_eq_applyPoly, State.respond_eq]
  rfl

/-- Settles O25: the jump polynomial is that of 2^64 steps. -/
theorem sjumpIsTwoToTheSixtyFourDraws : Obligations.SjumpIsTwoToTheSixtyFourDraws := by
  unfold Obligations.SjumpIsTwoToTheSixtyFourDraws
  intro s
  rw [exec_sjump, jump_eq_iterate, State.respond_eq]

theorem jump_xor (g h : GenState) : jump (GenState.xor g h) = GenState.xor (jump g) (jump h) := by
  rw [jump_eq_iterate, jump_eq_iterate, jump_eq_iterate, genStep_iterate_xor]

/-- n jumps are n times 2^64 steps (R86). -/
theorem jump_iterate (n : Nat) (g : GenState) : jump^[n] g = genStep^[2 ^ 64 * n] g := by
  rw [Function.iterate_mul, ← Config.jumpDistance, ← funext jump_eq_iterate]

/-- The registers SJUMP leaves, from the step's answer. -/
theorem scalar_of_exec_sjump {s t : State} (h : exec .sjump s = .next t) : t.regs.scalar = jump s.regs.scalar := by
  rw [← Host.Outcome.next.inj ((exec_sjump s).symm.trans h)]
  rfl

/-- Settles O27: the jump is a power of the linear step, and two of them twice that power. -/
theorem sjumpIsLinear : Obligations.SjumpIsLinear := by
  unfold Obligations.SjumpIsLinear
  refine ⟨fun s t u s' t' u' hsum hs ht hu => ?_, fun s => ⟨_, execAll_pair _ _ s, ?_⟩⟩
  · rw [scalar_of_exec_sjump hs, scalar_of_exec_sjump ht, scalar_of_exec_sjump hu, hsum, jump_xor]
  · simp only [Registers.afterCommand_sjump, Registers.jumpScalar_eq, Registers.setScalar_scalar]
    exact jump_iterate 2 s.regs.scalar

/-- The jump and the step can change places, one being a power of the other (R89). -/
theorem jump_genStep (g : GenState) : jump (genStep g) = genStep (jump g) := by
  rw [jump_eq_iterate, jump_eq_iterate, ← Function.iterate_succ_apply, Function.iterate_succ_apply']

/-- A second new pair leaves nothing of the first. -/
theorem Registers.setScalar_setScalar (r : Registers) (g h : GenState) : (r.setScalar g).setScalar h = r.setScalar h :=
  rfl

/-- Settles O28: in either order the pair is jumped and stepped. -/
theorem sjumpCommutesWithSdraw : Obligations.SjumpCommutesWithSdraw := by
  unfold Obligations.SjumpCommutesWithSdraw
  intro s
  refine ⟨_, _, execAll_pair _ _ s, execAll_pair _ _ s, ?_⟩
  simp only [Registers.afterCommand_sjump, Registers.afterCommand_sdraw, Registers.jumpScalar_eq,
    Registers.drawScalar_eq, Registers.setScalar_scalar, Registers.setScalar_setScalar, jump_genStep]

/-- Settles O29: the all-zero pair sums to 0 and is a fixed point of the step and of the jump. -/
theorem zeroStateIsAFixedPoint : Obligations.ZeroStateIsAFixedPoint := by
  unfold Obligations.ZeroStateIsAFixedPoint
  intro s hzero
  have hself : s.regs.setScalar zeroState = s.regs := hzero ▸ s.regs.setScalar_self
  constructor
  · rw [exec_eq_respond, Registers.afterCommand_sdraw, Registers.completionOf_sdraw, Registers.drawScalar_eq, hzero,
      genStep_zeroState, hself]
    rfl
  · rw [exec_sjump, hzero, (jump_eq_zeroState_iff zeroState).mpr rfl, hself]
    rfl

end Sys2Proof.Machine
end

section
/-! PROOFS. The vector engine's commands (42_vector_engine.md R102 to R114). -/

namespace Sys2Proof.Machine

/-! ## VSEED -/

/-- Settles O35: the eight draws of VSEED, in the words of the seed's sequence. -/
theorem vseedLoadsTheLanes : Obligations.VseedLoadsTheLanes := by
  unfold Obligations.VseedLoadsTheLanes
  intro seed s
  rw [exec_eq_respond, Registers.afterCommand_vseed, Registers.completionOf_vseed,
    s.regs.seedVector_eq_expanderWords, State.respond_eq]
  rfl

theorem Registers.lane_fst (r : Registers) (k : Fin 4) : (r.lane k).1 = r.vs0.get k := rfl

/-- The lanes' first words are of one sequence, fewer than 2^64 draws apart (R112). -/
theorem seededLane_fst_ne {j k : Fin 4} (h : j ≠ k) (seed : Word) : (seededLane seed j).1 ≠ (seededLane seed k).1 := by
  rcases lt_or_gt_of_ne h with hlt | hlt
  · exact expanderWord_ne_of_lt seed (Nat.succ_lt_succ hlt) (by omega)
  · exact (expanderWord_ne_of_lt seed (Nat.succ_lt_succ hlt) (by omega)).symm

/-- Settles O36: every seeded lane is live, and the lanes' first words are different words of the sequence. -/
theorem vseedLeavesLiveAndDifferentLanes : Obligations.VseedLeavesLiveAndDifferentLanes := by
  unfold Obligations.VseedLeavesLiveAndDifferentLanes
  refine fun seed s => ⟨_, exec_eq_respond _ s, s.regs.seedVector_lanesLive seed, fun j k hjk => ?_⟩
  rw [State.respond_regs, Registers.afterCommand_vseed, ← Registers.lane_fst, ← Registers.lane_fst,
    Registers.seedVector_lane, Registers.seedVector_lane]
  exact seededLane_fst_ne hjk seed

/-! ## VDRAW -/

/-- VDRAW takes the cursor one down, from empty around to 3 (R107). -/
theorem Registers.drawVector_vcur (r : Registers) : r.drawVector.2.vcur = r.vcur - 1#2 := by
  by_cases h : r.vcur = 0#2
  · rw [Registers.drawVector_empty h, h]; rfl
  · rw [Registers.drawVector_holds h]

/-- VDRAW returns the slot the new cursor names (R104, R107). -/
theorem Registers.drawVector_word (r : Registers) :
    r.drawVector.1 = r.drawVector.2.vbuf.get (Fin.ofNat 4 r.drawVector.2.vcur.toNat) := by
  by_cases h : r.vcur = 0#2
  · rw [Registers.drawVector_empty h]
    exact (r.refill_vbuf_get 3).symm
  · rw [Registers.drawVector_holds h]

/-- VDRAW from an empty buffer fills every slot with its lane's word, and otherwise leaves the buffer (R104). -/
theorem Registers.drawVector_vbuf_get (r : Registers) (k : Fin 4) :
    r.drawVector.2.vbuf.get k = if r.vcur = 0#2 then genResult (r.lane k) else r.vbuf.get k := by
  split
  next h => rw [Registers.drawVector_empty h]; exact r.refill_vbuf_get k
  next h => rw [Registers.drawVector_holds h]

/-- Settles O34: at a refill lane k and slot k are functions of the old lane k. -/
theorem lanesAreIndependent : Obligations.LanesAreIndependent := by
  unfold Obligations.LanesAreIndependent
  intro s s' k hcur hcur' hlane
  refine ⟨_, _, exec_eq_respond _ s, exec_eq_respond _ s', ?_, ?_⟩
  · rw [State.respond_regs, State.respond_regs, Registers.afterCommand_vdraw, Registers.afterCommand_vdraw,
      Registers.drawVector_lane, Registers.drawVector_lane, if_pos hcur, if_pos hcur', hlane]
  · rw [State.respond_regs, State.respond_regs, Registers.afterCommand_vdraw, Registers.afterCommand_vdraw,
      Registers.drawVector_vbuf_get, Registers.drawVector_vbuf_get, if_pos hcur, if_pos hcur', hlane]

/-- Settles O41: at a refill every lane steps from its own state, and the all-zero state steps to itself. -/
theorem zeroLaneStaysZero : Obligations.ZeroLaneStaysZero := by
  unfold Obligations.ZeroLaneStaysZero
  intro s k hcur hzero
  have hlane (j : Fin 4) : s.regs.drawVector.2.lane j = genStep (s.regs.lane j) := by
    rw [Registers.drawVector_lane, if_pos hcur]
  have hslot (j : Fin 4) : s.regs.drawVector.2.vbuf.get j = genResult (s.regs.lane j) := by
    rw [Registers.drawVector_vbuf_get, if_pos hcur]
  refine ⟨_, exec_eq_respond _ s, (hlane k).trans ?_, (hslot k).trans ?_, fun j => ⟨hlane j, hslot j⟩⟩
  · rw [hzero, genStep_zeroState]
  · rw [hzero]
    rfl

/-- The commands to the other units leave cursor, buffer and lanes (R107). -/
theorem Registers.vector_afterCommand_other (r : Registers) {i : Instr} (hdraw : i ≠ .vdraw)
    (hseed : ∀ seed, i ≠ .vseed seed) :
    (r.afterCommand i).vcur = r.vcur ∧ (r.afterCommand i).vbuf = r.vbuf ∧
      ∀ k, (r.afterCommand i).lane k = r.lane k := by
  cases i with
  | sminit seed => exact ⟨rfl, rfl, fun _ => rfl⟩
  | smnext => exact ⟨r.smNext_vcur, r.smNext_vbuf, r.smNext_lane⟩
  | sseed seed => exact ⟨r.seedScalar_vcur seed, r.seedScalar_vbuf seed, r.seedScalar_lane seed⟩
  | sdraw => exact ⟨r.drawScalar_vcur, r.drawScalar_vbuf, r.drawScalar_lane⟩
  | sjump => exact ⟨r.jumpScalar_vcur, r.jumpScalar_vbuf, r.jumpScalar_lane⟩
  | vseed seed => exact absurd rfl (hseed seed)
  | vdraw => exact absurd rfl hdraw

/-- Settles O38: VSEED empties, VDRAW counts down, and the other commands leave the vector engine alone. -/
theorem cursorStateMachine : Obligations.CursorStateMachine := by
  unfold Obligations.CursorStateMachine
  refine fun s => ⟨fun seed => ⟨_, exec_eq_respond _ s, s.regs.seedVector_vcur seed, s.regs.seedVector_vbuf seed⟩,
    ⟨_, exec_eq_respond _ s, s.regs.drawVector_vcur, ?_, s.regs.drawVector_lane⟩,
    fun i hdraw hseed => ⟨_, exec_eq_respond i s, s.regs.vector_afterCommand_other hdraw hseed⟩⟩
  exact congrArg (fun w => s.sent ++ [.word w]) s.regs.drawVector_word

/-- From a full buffer but for lane 3's word, three VDRAW only lower the cursor (R104, R106). -/
theorem execAll_three_vdraw {s : State} (h : s.regs.vcur = 3#2) :
    execAll [.vdraw, .vdraw, .vdraw] s = .next ⟨{ s.regs with vcur := 0#2 }, s.inputs,
      s.sent ++ [.word s.regs.vbuf.lane2, .word s.regs.vbuf.lane1, .word s.regs.vbuf.lane0]⟩ := by
  obtain ⟨-, holds3, -, -⟩ := vdrawRefillsOrReturnsTheNextSlot s
  obtain ⟨-, -, holds2, -⟩ := vdrawRefillsOrReturnsTheNextSlot ⟨{ s.regs with vcur := 2#2 }, s.inputs,
    s.sent ++ [.word s.regs.vbuf.lane2]⟩
  obtain ⟨-, -, -, holds1⟩ := vdrawRefillsOrReturnsTheNextSlot ⟨{ s.regs with vcur := 1#2 }, s.inputs,
    s.sent ++ [.word s.regs.vbuf.lane2] ++ [.word s.regs.vbuf.lane1]⟩
  rw [execAll_cons_of_next _ (holds3 h), execAll_cons_of_next _ (holds2 rfl), execAll_cons_of_next _ (holds1 rfl),
    execAll_nil, List.append_assoc, List.append_assoc]
  rfl

/-- From an empty buffer four VDRAW refill once, and then only lower the cursor (R104, R106). -/
theorem execAll_four_vdraw {s : State} (h : s.regs.vcur = 0#2) :
    execAll [.vdraw, .vdraw, .vdraw, .vdraw] s = .next ⟨{ s.regs.refill with vcur := 0#2 }, s.inputs,
      s.sent ++ [.word (genResult (s.regs.lane 3)), .word (genResult (s.regs.lane 2)),
        .word (genResult (s.regs.lane 1)), .word (genResult (s.regs.lane 0))]⟩ := by
  rw [execAll_cons_of_next _ (exec_vdraw_empty h), execAll_three_vdraw rfl, List.append_assoc]
  rfl

/-- Settles O39: the four draws return the four slots of one refill. -/
theorem fourDrawsDrainLanesThreeToZero : Obligations.FourDrawsDrainLanesThreeToZero := by
  unfold Obligations.FourDrawsDrainLanesThreeToZero
  exact fun s hcur => ⟨_, execAll_four_vdraw hcur, rfl, rfl, s.regs.refill_lane, s.regs.refill_smx,
    s.regs.refill_scalar⟩

/-- Settles O40: VSEED empties the buffer, so the next VDRAW refills it from the lanes as seeded. -/
theorem vseedDiscardsTheBuffer : Obligations.VseedDiscardsTheBuffer := by
  unfold Obligations.VseedDiscardsTheBuffer
  intro seed s
  have hcur := s.regs.seedVector_vcur seed
  refine ⟨_, execAll_pair _ _ s, fun k => ⟨?_, ?_⟩, ?_, ?_⟩
  · rw [Registers.afterCommand_vseed, Registers.afterCommand_vdraw, Registers.drawVector_vbuf_get, if_pos hcur,
      Registers.seedVector_lane]
  · rw [Registers.afterCommand_vseed, Registers.afterCommand_vdraw, Registers.drawVector_lane, if_pos hcur,
      Registers.seedVector_lane]
  · rw [Registers.afterCommand_vseed, Registers.afterCommand_vdraw, Registers.drawVector_vcur, hcur]
    rfl
  · rw [Registers.completionOf_vseed, Registers.afterCommand_vseed, Registers.completionOf_vdraw,
      Registers.drawVector_empty hcur, Registers.seedVector_lane]

end Sys2Proof.Machine
end

section
/-! PROOFS. What each command leaves alone, and what a seed command repeated leaves (10_state.md R20; 20_memory.md
R43). -/

namespace Sys2Proof.Machine

theorem regs_of_exec {i : Instr} {s t : State} (h : exec i s = .next t) : t.regs = s.regs.afterCommand i := by
  rw [← Host.Outcome.next.inj ((exec_eq_respond i s).symm.trans h), State.respond_regs]

section Frames
variable (r : Registers) (seed : Word)

theorem Registers.smLoad_frame : r.smLoad seed = { r with smx := (r.smLoad seed).smx } := rfl

theorem Registers.seedScalar_frame :
    r.seedScalar seed = { r with
      smx := (r.seedScalar seed).smx, ss0 := (r.seedScalar seed).ss0, ss1 := (r.seedScalar seed).ss1 } := by
  rw [r.seedScalar_eq rfl rfl rfl rfl]

theorem Registers.setScalar_frame (g : GenState) :
    r.setScalar g = { r with ss0 := (r.setScalar g).ss0, ss1 := (r.setScalar g).ss1 } := rfl

theorem Registers.seedVector_frame :
    r.seedVector seed = { r with
      smx := (r.seedVector seed).smx, vs0 := (r.seedVector seed).vs0, vs1 := (r.seedVector seed).vs1,
      vcur := (r.seedVector seed).vcur } := by
  rw [r.seedVector_eq_expanderWords]

theorem Registers.drawVector_frame :
    r.drawVector.2 = { r with
      vs0 := r.drawVector.2.vs0, vs1 := r.drawVector.2.vs1, vbuf := r.drawVector.2.vbuf,
      vcur := r.drawVector.2.vcur } := by
  by_cases h : r.vcur = 0#2
  · rw [Registers.drawVector_empty h, Registers.refill_eq]
  · rw [Registers.drawVector_holds h]

theorem Registers.drawVector_frame_of_holds (h : r.vcur ≠ 0#2) :
    r.drawVector.2 = { r with vcur := r.drawVector.2.vcur } := by
  rw [Registers.drawVector_holds h]

end Frames

/-- Settles O42: a command's registers are those of its one operation, and each operation has its frame. -/
theorem commandsWriteOnlyTheirRegisters : Obligations.CommandsWriteOnlyTheirRegisters := by
  unfold Obligations.CommandsWriteOnlyTheirRegisters
  refine fun s t => ⟨?_, fun seed h => ?_, ?_, fun seed h => ?_, fun h => ?_⟩
  · rintro i (rfl | ⟨seed, rfl⟩) h
    · rw [regs_of_exec h, Registers.afterCommand_smnext, s.regs.smNext_regs]
      exact s.regs.smLoad_frame _
    · rw [regs_of_exec h]
      exact s.regs.smLoad_frame seed
  · rw [regs_of_exec h]
    exact s.regs.seedScalar_frame seed
  · rintro i (rfl | rfl) h
    · rw [regs_of_exec h, Registers.afterCommand_sdraw, Registers.drawScalar_eq]
      exact s.regs.setScalar_frame _
    · rw [regs_of_exec h, Registers.afterCommand_sjump, Registers.jumpScalar_eq]
      exact s.regs.setScalar_frame _
  · rw [regs_of_exec h]
    exact s.regs.seedVector_frame seed
  · rw [regs_of_exec h]
    exact ⟨s.regs.drawVector_frame, s.regs.drawVector_frame_of_holds⟩

/-- SSEED loads the same values whatever it finds, and leaves the rest (41_scalar_engine.md R83). -/
theorem Registers.seedScalar_seedScalar (r : Registers) (seed : Word) :
    (r.seedScalar seed).seedScalar seed = r.seedScalar seed := by
  refine Registers.ext_regs ?_ ?_ (fun k => ?_) (fun k => ?_) ?_
  · rw [Registers.seedScalar_smx, Registers.seedScalar_smx]
  · rw [Registers.seedScalar_scalar, Registers.seedScalar_scalar]
  · rw [Registers.seedScalar_lane]
  · rw [Registers.seedScalar_vbuf]
  · rw [Registers.seedScalar_vcur]

/-- VSEED loads the same values whatever it finds, and leaves the rest (42_vector_engine.md R103). -/
theorem Registers.seedVector_seedVector (r : Registers) (seed : Word) :
    (r.seedVector seed).seedVector seed = r.seedVector seed := by
  refine Registers.ext_regs ?_ ?_ (fun k => ?_) (fun k => ?_) ?_
  · rw [Registers.seedVector_smx, Registers.seedVector_smx]
  · rw [Registers.seedVector_scalar]
  · rw [Registers.seedVector_lane, Registers.seedVector_lane]
  · rw [Registers.seedVector_vbuf]
  · rw [Registers.seedVector_vcur, Registers.seedVector_vcur]

/-- Settles O43: what a seed command loads does not depend on what it finds. -/
theorem seedCommandsAreIdempotent : Obligations.SeedCommandsAreIdempotent := by
  unfold Obligations.SeedCommandsAreIdempotent
  intro seed i s hi
  have again : (s.regs.afterCommand i).afterCommand i = s.regs.afterCommand i := by
    simp only [List.mem_cons, List.not_mem_nil, or_false] at hi
    obtain rfl | rfl | rfl := hi
    · exact s.regs.smLoad_smLoad seed seed
    · exact s.regs.seedScalar_seedScalar seed
    · exact s.regs.seedVector_seedVector seed
  exact ⟨_, _, exec_eq_respond i s, exec_eq_respond i _, again⟩

end Sys2Proof.Machine
end

section
/-! PROOFS. The words a draw command gets in a list of commands (41_scalar_engine.md R92; 42_vector_engine.md R108,
R113), and the host's constructors without an argument (30_encoding.md R61). -/

namespace Sys2Proof.Machine

/-! ## One command's words in a transcript -/

theorem wordsTo_cons_done (d i : Instr) (l : List (Instr × Completion)) :
    wordsTo d ((i, .done) :: l) = wordsTo d l := rfl

theorem wordsTo_cons_self (d : Instr) (w : Word) (l : List (Instr × Completion)) :
    wordsTo d ((d, .word w) :: l) = w :: wordsTo d l := by
  simp [wordsTo]

theorem wordsTo_cons_other {d i : Instr} (h : i ≠ d) (c : Completion) (l : List (Instr × Completion)) :
    wordsTo d ((i, c) :: l) = wordsTo d l := by
  cases c <;> simp [wordsTo, h]

/-- Where a draw command answers the word of a position and goes one on, and the other commands of a list leave the
position, its words in the list are those of the positions in a row. -/
theorem wordsTo_transcript {standsAt : Registers → Nat → Prop} {word : Nat → Word} {d : Instr} {is : List Instr}
    (hword : ∀ {r n}, standsAt r n → r.completionOf d = .word (word n))
    (hdraw : ∀ {r n}, standsAt r n → standsAt (r.afterCommand d) (n + 1))
    (hother : ∀ i ∈ is, i ≠ d → ∀ {r n}, standsAt r n → standsAt (r.afterCommand i) n) {s : State} {n : Nat}
    (h : standsAt s.regs n) :
    wordsTo d (transcript is s) = (List.range (is.count d)).map fun m => word (n + m) := by
  induction is generalizing s n with
  | nil => rfl
  | cons i is ih =>
    have hrest := @ih fun j hj => hother j (List.mem_cons_of_mem i hj)
    rw [transcript_cons]
    by_cases hi : i = d
    · subst hi
      rw [hword h, wordsTo_cons_self, @hrest _ (n + 1) (hdraw h), List.count_cons_self, List.range_succ_eq_map,
        List.map_cons, List.map_map, Nat.add_zero]
      refine congrArg _ (List.map_congr_left fun m _ => ?_)
      rw [Function.comp_apply, Nat.succ_eq_one_add, Nat.add_assoc]
    · rw [wordsTo_cons_other hi, @hrest _ n (hother i List.mem_cons_self hi h), List.count_cons_of_ne hi]

/-! ## The scalar stream -/

theorem Registers.seedScalar_atScalar (r : Registers) (seed : Word) : (r.seedScalar seed).atScalar (seed, 0) :=
  r.seedScalar_scalar seed

/-- The commands to the other units leave the scalar position (R92). -/
theorem scalarPosition_other {i : Instr} (hdraw : i ≠ .sdraw) (hjump : i ≠ .sjump) (hseed : ∀ x, i ≠ .sseed x)
    (p : Word × Nat) : scalarPosition p i = p := by
  cases i with
  | sminit _ | smnext | vseed _ | vdraw => rfl
  | sseed x => exact absurd rfl (hseed x)
  | sdraw => exact absurd rfl hdraw
  | sjump => exact absurd rfl hjump

/-- Settles O46: SSEED puts the engine at draw 0, and the list's SDRAW take it from draw to draw. -/
theorem scalarStreamDependsOnTheSeedOnly : Obligations.ScalarStreamDependsOnTheSeedOnly := by
  unfold Obligations.ScalarStreamDependsOnTheSeedOnly
  intro seed is s hother
  rw [transcript_cons, Registers.completionOf_sseed, wordsTo_cons_done]
  refine (wordsTo_transcript (standsAt := fun r n => r.atScalar (seed, n)) (word := fun n => scalarWord (seed, n))
    (s := s.respond (s.regs.seedScalar seed) .done) (n := 0)
    (fun h => Registers.completionOf_sdraw_of_atScalar h) (fun h => Registers.atScalar_afterCommand h .sdraw)
    (fun i hi hdraw r n h => ?_) (s.regs.seedScalar_atScalar seed)).trans ?_
  · obtain ⟨hjump, hseed⟩ := hother i hi
    exact scalarPosition_other hdraw hjump hseed (seed, n) ▸ Registers.atScalar_afterCommand h i
  · simp only [Nat.zero_add, scalarWord]

/-! ## The vector stream -/

/-- The commands to the other units leave the vector position (42_vector_engine.md R113). -/
theorem vectorPosition_other {i : Instr} (hdraw : i ≠ .vdraw) (hseed : ∀ x, i ≠ .vseed x) (p : Word × Nat) :
    vectorPosition p i = p := by
  cases i with
  | sminit _ | smnext | sseed _ | sdraw | sjump => rfl
  | vseed x => exact absurd rfl (hseed x)
  | vdraw => exact absurd rfl hdraw

/-- Where the sequences of two seeds meet in a word, they meet again only after as many draws in each, as words: the
counters met, and multiplication by the odd SM_GAMMA is injective (40_seed_expander.md R75). -/
theorem ofNat_eq_of_expanderWord_add_eq {seed seed' : Word} {m m' d d' : Nat}
    (h : expanderWord seed m = expanderWord seed' m') (hd : expanderWord seed (m + d) = expanderWord seed' (m' + d')) :
    BitVec.ofNat 64 d = BitVec.ofNat 64 d' := by
  have hmeet := mix64_injective h
  have hagain := mix64_injective hd
  rw [add_ofNat_add_mul, add_ofNat_add_mul, hmeet, BitVec.add_right_inj] at hagain
  exact mulWord_injective (by decide) hagain

/-- The two words of a lane's seeded state stand four draws apart, those of a state SSEED leaves one
(42_vector_engine.md R108). -/
theorem seededLane_ne_seededScalar (seed seed' : Word) (k : Fin 4) : seededLane seed k ≠ seededScalar seed' := by
  intro h
  obtain ⟨hfst, hsnd⟩ := Prod.mk.inj h
  have hfour : BitVec.ofNat 64 4 = BitVec.ofNat 64 1 :=
    ofNat_eq_of_expanderWord_add_eq (m := k.val + 1) (m' := 1) hfst hsnd
  exact absurd hfour (by decide)

/-- VDRAW answers the word of the position (42_vector_engine.md R104, R108). -/
theorem Registers.completionOf_vdraw_of_atVector {r : Registers} {p : Word × Nat} (h : r.atVector p) :
    r.completionOf .vdraw = .word (vectorWord p) := by
  rw [Registers.completionOf_vdraw, Registers.drawVector_word_of_atVector h]

/-- Settles O47: VSEED puts the engine at draw 0, and the list's VDRAW take it from draw to draw. -/
theorem vectorStreamInterleavesFourScalarStreams : Obligations.VectorStreamInterleavesFourScalarStreams := by
  unfold Obligations.VectorStreamInterleavesFourScalarStreams
  refine ⟨fun seed is s hother => ?_, seededLane_ne_seededScalar⟩
  rw [transcript_cons, Registers.completionOf_vseed, wordsTo_cons_done]
  refine (wordsTo_transcript (standsAt := fun r n => r.atVector (seed, n)) (word := fun n => vectorWord (seed, n))
    (s := s.respond (s.regs.seedVector seed) .done) (n := 0)
    (fun h => Registers.completionOf_vdraw_of_atVector h) (fun h => Registers.atVector_afterCommand h .vdraw)
    (fun i hi hdraw r n h => ?_) (s.regs.seedVector_atVector seed)).trans ?_
  · exact vectorPosition_other hdraw (hother i hi) (seed, n) ▸ Registers.atVector_afterCommand h i
  · simp only [Nat.zero_add, vectorWord]

/-- Settles O50: the two lines are well formed without an operand, so the host's word is the seed. -/
theorem noArgumentConstructorsTakeAFreeSeed : Obligations.NoArgumentConstructorsTakeAFreeSeed := by
  unfold Obligations.NoArgumentConstructorsTakeAFreeSeed
  exact fun e => ⟨assemble_of_wf rfl e, assemble_of_wf rfl e⟩

end Sys2Proof.Machine
end

section
/-! PROOFS. The period of the generator's step (41_scalar_engine.md R82): powers of `x` modulo its polynomial, in natural
numbers. -/

namespace Sys2Proof.Machine

/-! ## Powers of `x` -/

/-- `x^e` for e below `2^n`, reduced, by squaring from the exponent's highest bit down. -/
def powX : Nat → Nat → BitVec 128
  | 0, _ => 1#128
  | n + 1, e => bif (e % 2).beq 1 then mulX (squarePoly (powX n (e / 2))) else squarePoly (powX n (e / 2))

theorem applyPoly_one (g : GenState) : applyPoly 1#128 g = g := by
  have hbits : polyBits 1#128 = true :: List.replicate 127 false := by decide
  rw [applyPoly, hbits, jumpLoop_cons, jumpLoop_replicate_false]
  simp

/-- `x^e` makes e steps. -/
theorem applyPoly_powX {n e : Nat} (h : e < 2 ^ n) (g : GenState) : applyPoly (powX n e) g = genStep^[e] g := by
  induction n generalizing e g with
  | zero => rw [Nat.lt_one_iff.mp h]; exact applyPoly_one g
  | succ n ih =>
    have hhalf : e / 2 < 2 ^ n := Nat.div_lt_of_lt_mul (by rwa [← pow_succ'])
    have hsquare (g : GenState) : applyPoly (squarePoly (powX n (e / 2))) g = genStep^[2 * (e / 2)] g := by
      rw [applyPoly_squarePoly, ih hhalf, ih hhalf, ← Function.iterate_add_apply, Nat.two_mul]
    rw [powX]
    rcases Nat.mod_two_eq_zero_or_one e with hbit | hbit
    · rw [hbit]
      refine (hsquare g).trans ?_
      rw [show 2 * (e / 2) = e by omega]
    · rw [hbit]
      refine (applyPoly_mulX _ g).trans ((hsquare (genStep g)).trans ?_)
      rw [← Function.iterate_succ_apply, show (2 * (e / 2)).succ = e by omega]

/-! ## The same in natural numbers

A polynomial is the natural number of its coefficients. Lean computes much faster on these than on bit vectors, the
more so as the definitions name `Nat`'s own functions. -/

/-- `mulX` on the number of a polynomial. -/
def natMulX (c : Nat) : Nat :=
  Nat.xor (Nat.mod (Nat.mul 2 c) 0x100000000000000000000000000000000)
    (Nat.mul (Nat.div c 0x80000000000000000000000000000000) 0x0008828E513B43D5095B8F76579AA001)

/-- `mulBits` on numbers: the product with the low n coefficients of `d`. -/
def natMulBits (c : Nat) : Nat → Nat → Nat
  | 0, _ => 0
  | n + 1, d => Nat.xor (Nat.mul (Nat.mod d 2) c) (natMulX (natMulBits c n (Nat.div d 2)))

/-- `squarePoly` on numbers. -/
def natSquare (c : Nat) : Nat := natMulBits c 128 c

/-- `powX` on numbers. -/
def natPowX : Nat → Nat → Nat
  | 0, _ => 1
  | n + 1, e =>
    bif (Nat.mod e 2).beq 1 then natMulX (natSquare (natPowX n (Nat.div e 2))) else natSquare (natPowX n (Nat.div e 2))

theorem toNat_mulX (c : BitVec 128) : (mulX c).toNat = natMulX c.toNat := by
  have hshift : (c <<< 1).toNat = 2 * c.toNat % 2 ^ 128 := by
    rw [BitVec.toNat_shiftLeft, Nat.shiftLeft_eq, pow_one, Nat.mul_comm]
  have hterms : (bif c.msb then xPow128 else 0#128).toNat = c.toNat / 2 ^ 127 * xPow128.toNat := by
    have hlt := c.isLt
    rw [BitVec.msb_eq_decide]
    by_cases h : 2 ^ 127 ≤ c.toNat
    · rw [decide_eq_true h, show c.toNat / 2 ^ 127 = 1 by omega, one_mul, cond_true]
    · rw [decide_eq_false h, show c.toNat / 2 ^ 127 = 0 by omega, zero_mul, cond_false]
      rfl
  rw [mulX, BitVec.toNat_xor, hshift, hterms]
  rfl

theorem toNat_mulBits (c : BitVec 128) (n d : Nat) :
    (mulBits c ((List.range n).map d.testBit)).toNat = natMulBits c.toNat n d := by
  induction n generalizing d with
  | zero => rfl
  | succ n ih =>
    have htail : (List.range n).map (d.testBit ∘ Nat.succ) = (List.range n).map (d / 2).testBit :=
      List.map_congr_left fun i _ => Nat.testBit_succ d i
    have hhead : (bif d.testBit 0 then c else 0#128).toNat = d % 2 * c.toNat := by
      rw [Nat.testBit_zero]
      rcases Nat.mod_two_eq_zero_or_one d with h | h <;> simp [h]
    rw [List.range_succ_eq_map, List.map_cons, List.map_map, htail, mulBits, BitVec.toNat_xor, toNat_mulX, ih, hhead]
    rfl

theorem toNat_squarePoly (c : BitVec 128) : (squarePoly c).toNat = natSquare c.toNat := toNat_mulBits c 128 c.toNat

theorem toNat_powX (n e : Nat) : (powX n e).toNat = natPowX n e := by
  induction n generalizing e with
  | zero => rfl
  | succ n ih =>
    rw [powX, natPowX, Bool.apply_cond BitVec.toNat, toNat_mulX, toNat_squarePoly, ih]
    rfl

/-! ## The prime factors of 2^128 - 1 -/

/-- The number of states but the all-zero one. -/
def cycleLength : Nat := 2 ^ 128 - 1

/-- By Lucas's criterion, 3 being a primitive root. -/
theorem prime_67280421310721 : Nat.Prime 67280421310721 := by
  have factors : ∀ q ∈ List.replicate 8 2 ++ [5, 47, 373, 2998279], Prime q := by
    simp only [List.forall_mem_append, List.forall_mem_replicate, List.forall_mem_cons, ← Nat.prime_iff]
    norm_num
  refine lucas_primality _ (3 : ZMod 67280421310721) (by reduce_mod_char) fun q hq hdvd => ?_
  have hmem : q ∈ List.replicate 8 2 ++ [5, 47, 373, 2998279] :=
    mem_list_primes_of_dvd_prod hq.prime factors hdvd
  simp only [List.mem_append, List.mem_replicate, List.mem_cons, List.not_mem_nil, or_false] at hmem
  obtain ⟨-, rfl⟩ | rfl | rfl | rfl | rfl := hmem <;> norm_num only <;> reduce_mod_char <;> decide

/-- Each prime factor p of the cycle's length, with the number of the polynomial `x^(cycleLength / p)`. The factors are
those of the Fermat numbers up to 2^64 + 1. -/
def partPowers : List (Nat × Nat) :=
  [(3, 0x28AD2CF3E09D85F0DC40F461D2C2C7D8), (5, 0x98F345D6B42B356EB5EBD5843DDBB56A),
    (17, 0xC8F010ECC25ABC843DD34D7C8D68D1F2), (257, 0x283147F5D2B54BB7AEE2E146157266D6),
    (641, 0xB2475F58FDCCE169014677765D790218), (65537, 0x816817918FF1939964C4348B1DA92C47),
    (274177, 0x9D0890E7CF21827696F55AF18B26CE36), (6700417, 0x840C877ECE31BCFD2634145BAC44CC62),
    (67280421310721, 0x678353DF70781CECDD047B2A9386217D)]

theorem exists_partPower {p : Nat} (hp : p.Prime) (hdvd : p ∣ cycleLength) : ∃ c, (p, c) ∈ partPowers := by
  have primes : ∀ q ∈ partPowers.map Prod.fst, Prime q := by
    simp only [partPowers, List.map_cons, List.map_nil, List.forall_mem_cons, ← Nat.prime_iff]
    refine ⟨?_, ?_, ?_, ?_, ?_, ?_, ?_, ?_, prime_67280421310721, by simp⟩ <;> norm_num
  have hprod : (partPowers.map Prod.fst).prod = cycleLength := by decide
  obtain ⟨q, hmem, rfl⟩ := List.mem_map.mp (mem_list_primes_of_dvd_prod hp.prime primes (hprod ▸ hdvd))
  exact ⟨q.2, hmem⟩

/-! ## The period of one state -/

/-- The state with bit 0 of its first word set. -/
def firstState : GenState := (1#64, 0#64)

set_option maxRecDepth 10000 in
theorem natPowX_cycleLength : natPowX 128 cycleLength = 1 := by decide

set_option maxRecDepth 10000 in
theorem natPowX_partPowers : ∀ q ∈ partPowers, natPowX 127 (cycleLength / q.1) = q.2 := by decide

set_option maxRecDepth 4000 in
theorem applyPoly_partPowers : ∀ q ∈ partPowers, applyPoly (BitVec.ofNat 128 q.2) firstState ≠ firstState := by decide

/-- e steps are the polynomial `x^e`, from its number. -/
theorem genStep_iterate_eq_applyPoly {n e : Nat} (h : e < 2 ^ n) (g : GenState) :
    genStep^[e] g = applyPoly (BitVec.ofNat 128 (natPowX n e)) g := by
  rw [← applyPoly_powX h, ← toNat_powX, BitVec.ofNat_toNat, BitVec.setWidth_eq]

theorem genStep_iterate_cycleLength (g : GenState) : genStep^[cycleLength] g = g := by
  rw [genStep_iterate_eq_applyPoly (n := 128) (by decide), natPowX_cycleLength]
  exact applyPoly_one g

theorem genStep_iterate_div_prime {p : Nat} (hp : p.Prime) (hdvd : p ∣ cycleLength) :
    genStep^[cycleLength / p] firstState ≠ firstState := by
  obtain ⟨c, hmem⟩ := exists_partPower hp hdvd
  have hlt : cycleLength / p < 2 ^ 127 :=
    (Nat.div_le_div_left hp.two_le (by decide)).trans_lt (by decide)
  rw [genStep_iterate_eq_applyPoly hlt, natPowX_partPowers _ hmem]
  exact applyPoly_partPowers _ hmem

/-- A period is the least one when none of its largest proper divisors is a period. -/
theorem minimalPeriod_eq_of_prime_div {α : Type} {f : α → α} {x : α} {n : Nat} (hn : Function.IsPeriodicPt f n x)
    (hdiv : ∀ p, p.Prime → p ∣ n → ¬ Function.IsPeriodicPt f (n / p) x) : Function.minimalPeriod f x = n := by
  obtain ⟨k, hk⟩ := hn.minimalPeriod_dvd
  by_contra hne
  have hk1 : k ≠ 1 := fun h => hne (by rw [hk, h, mul_one])
  obtain ⟨p, hp, j, rfl⟩ := Nat.exists_prime_and_dvd hk1
  refine hdiv p hp ⟨_, hk.trans (Nat.mul_left_comm ..)⟩ ?_
  rw [Function.isPeriodicPt_iff_minimalPeriod_dvd, hk, Nat.mul_left_comm, Nat.mul_div_cancel_left _ hp.pos]
  exact Nat.dvd_mul_right ..

theorem minimalPeriod_firstState : Function.minimalPeriod genStep firstState = cycleLength :=
  minimalPeriod_eq_of_prime_div (genStep_iterate_cycleLength firstState) fun _ hp hdvd =>
    genStep_iterate_div_prime hp hdvd

/-! ## The cycle -/

theorem GenState.nat_card : Nat.card GenState = cycleLength + 1 := by
  rw [Nat.card_prod, Nat.card_congr (BitVec.equivFin (m := 64)).toEquiv, Nat.card_fin]
  decide

/-- The all-zero state, and the states of the cycle by their number. -/
def cycleState : Option (Fin cycleLength) → GenState
  | none => zeroState
  | some n => genStep^[n.val] firstState

theorem cycleState_injective : Function.Injective cycleState := by
  have live (n : Nat) : genStep^[n] firstState ≠ zeroState :=
    mt (genStep_iterate_eq_zeroState_iff n firstState).mp (by decide)
  rintro (_ | m) (_ | n) h
  · rfl
  · exact absurd h.symm (live n)
  · exact absurd h (live m)
  · have below (i : Fin cycleLength) : i.val < Function.minimalPeriod genStep firstState :=
      minimalPeriod_firstState.symm ▸ i.isLt
    exact congrArg some (Fin.ext
      ((Function.iterate_eq_iterate_iff_of_lt_minimalPeriod (below m) (below n)).mp h))

/-- There are no states off the cycle but the all-zero one: the cycle has as many as there are others. -/
theorem exists_genStep_iterate_firstState {g : GenState} (hg : g ≠ zeroState) :
    ∃ n < cycleLength, genStep^[n] firstState = g := by
  have : Finite GenState := Nat.finite_of_card_ne_zero (GenState.nat_card ▸ Nat.succ_ne_zero _)
  have hcard : Nat.card GenState ≤ Nat.card (Option (Fin cycleLength)) := by
    rw [GenState.nat_card, Finite.card_option, Nat.card_fin]
  obtain ⟨_ | n, hn⟩ := (cycleState_injective.bijective_of_nat_card_le hcard).surjective g
  · exact absurd hn.symm hg
  · exact ⟨n.val, n.isLt, hn⟩

/-- Every state but the all-zero one has the cycle's length as its period. -/
theorem minimalPeriod_of_live {g : GenState} (hg : g ≠ zeroState) : Function.minimalPeriod genStep g = cycleLength := by
  obtain ⟨n, -, rfl⟩ := exists_genStep_iterate_firstState hg
  rw [Function.minimalPeriod_apply_iterate
    (Function.mk_mem_periodicPts (by decide) (genStep_iterate_cycleLength firstState)), minimalPeriod_firstState]

theorem genStep_iterate_eq_self_iff {g : GenState} (hg : g ≠ zeroState) (n : Nat) :
    genStep^[n] g = g ↔ cycleLength ∣ n :=
  Function.isPeriodicPt_iff_minimalPeriod_dvd.trans (by rw [minimalPeriod_of_live hg])

theorem genStep_eq_self_iff (g : GenState) : genStep g = g ↔ g = zeroState := by
  refine ⟨fun h => by_contra fun hg => ?_, fun h => h ▸ genStep_zeroState⟩
  exact absurd ((genStep_iterate_eq_self_iff hg 1).mp h) (by decide)

/-- From one live state to another: forward along the cycle, past its start where the other lies behind. -/
theorem exists_genStep_iterate_eq {g h : GenState} (hg : g ≠ zeroState) (hh : h ≠ zeroState) :
    ∃ n < cycleLength, genStep^[n] g = h := by
  obtain ⟨a, ha, rfl⟩ := exists_genStep_iterate_firstState hg
  obtain ⟨b, hb, rfl⟩ := exists_genStep_iterate_firstState hh
  by_cases hab : a ≤ b
  · refine ⟨b - a, by omega, ?_⟩
    rw [← Function.iterate_add_apply, Nat.sub_add_cancel hab]
  · refine ⟨cycleLength + b - a, by omega, ?_⟩
    rw [← Function.iterate_add_apply, Nat.sub_add_cancel (by omega), Function.iterate_add_apply,
      genStep_iterate_cycleLength]

/-- Settles O30: one state has the period 2^128 - 1, so the states on its cycle are all but the all-zero one. -/
theorem liveStatesFormOneCycle : Obligations.LiveStatesFormOneCycle := by
  unfold Obligations.LiveStatesFormOneCycle
  exact ⟨genStep_eq_self_iff, fun _ hg => genStep_iterate_eq_self_iff hg,
    fun _ _ hg hh => exists_genStep_iterate_eq hg hh⟩

/-! ## Streams after jumps -/

/-- m steps after j jumps (R86). -/
theorem genStep_iterate_jump_iterate (m j : Nat) (g : GenState) :
    genStep^[m] (jump^[j] g) = genStep^[m + 2 ^ 64 * j] g := by
  rw [jump_iterate, ← Function.iterate_add_apply]

/-- Settles O31: a position is a number of steps below the cycle's length, and different numbers give different
states. -/
theorem jumpedStreamsShareNoPosition : Obligations.JumpedStreamsShareNoPosition := by
  unfold Obligations.JumpedStreamsShareNoPosition
  refine fun g hg => ⟨fun j k m n hjk hk hm hn h => ?_, ?_⟩
  · have hlength : Function.minimalPeriod genStep g = 2 ^ 128 - 1 := minimalPeriod_of_live hg
    rw [genStep_iterate_jump_iterate, genStep_iterate_jump_iterate,
      Function.iterate_eq_iterate_iff_of_lt_minimalPeriod (by omega) (by omega)] at h
    omega
  · rw [genStep_iterate_jump_iterate, genStep_iterate_eq_self_iff hg]
    exact Dvd.intro 1 (by decide)

end Sys2Proof.Machine
end
